-- ==== Sys2Proof/Word.lean ====
section
/-! DEFINITION. The words BOMUX moves and the four fields of its command byte, as types:
00_scope.md R6 and R7, 30_encoding.md R60 to R65. Nothing here computes. -/

namespace Sys2Proof

/-- A byte of BUFMEM, and the width of the command byte (20_memory.md R40, 30_encoding.md R60). -/
abbrev Byte := BitVec 8

/-- What the VAL and RES ports carry: VAL_BITS = RES_BITS = 128 (00_scope.md R6). -/
abbrev Value := BitVec 128

/-- The ordering a command selects (00_scope.md R2, 30_encoding.md R61). -/
inductive ByteOrder where
  | be
  | le
  deriving DecidableEq, Repr

/-- The operation family, bits 6:4 of the command byte; codes 3 and 7 name no family
(30_encoding.md R64). -/
inductive Kind where
  | u
  | i
  | f
  | uint
  | int
  | float
  deriving DecidableEq, Repr

/-- The value width or container, bits 3:2 of the command byte (30_encoding.md R63). -/
inductive WidthSel where
  | w16
  | w32
  | w64
  | w128
  deriving DecidableEq, Repr

/-- The direction, bit 1 of the command byte (30_encoding.md R62). -/
inductive Direction where
  | rd
  | wr
  deriving DecidableEq, Repr

end Sys2Proof
end

