-- ==== Sys2Proof/Config.lean ====
section
/-! DEFINITION. What an implementation of BOMUX fixes (00_scope.md R6, 92_eei_decisions.md "Open parameters").
BUFSZ is a field of State and NATIVE_ORDER an argument of the assembler, so that every statement holds for
every value of them; no value of the spec is left free, so there is no opaque constant
(00_scope.md section 6: "No drawn value exists"). -/

namespace Sys2Proof

/-- EXT128: the 128-bit operations exist on this hardware (00_scope.md R6, 92_eei_decisions.md D11). -/
def Config.ext128 : Bool := true

/-- The largest BUFSZ the spec allows; the smallest is 1 (00_scope.md R6, 92_eei_decisions.md D3). -/
def Config.maxBufSize : Nat := 4294967296

end Sys2Proof
end

