-- ==== Sys2Proof/Syntax.lean ====
section
/-! DEFINITION. The commands of BOMUX, one constructor per row of spec/opcode_table.json, in the table's order
(30_encoding.md R66). A command carries no operand: operands travel on the ports (30_encoding.md R60, R68). -/

namespace Sys2Proof

/-- The 58 legal commands (30_encoding.md R66). -/
inductive Instr where
  /-- `RD.U16.BE`, byte 0x00 (40_fixed_int.md R84). -/
  | rdU16Be
  /-- `RD.U16.LE`, byte 0x01 (40_fixed_int.md R84). -/
  | rdU16Le
  /-- `WR.U16.BE`, byte 0x02 (40_fixed_int.md R85). -/
  | wrU16Be
  /-- `WR.U16.LE`, byte 0x03 (40_fixed_int.md R85). -/
  | wrU16Le
  /-- `RD.U32.BE`, byte 0x04 (40_fixed_int.md R86). -/
  | rdU32Be
  /-- `RD.U32.LE`, byte 0x05 (40_fixed_int.md R86). -/
  | rdU32Le
  /-- `WR.U32.BE`, byte 0x06 (40_fixed_int.md R87). -/
  | wrU32Be
  /-- `WR.U32.LE`, byte 0x07 (40_fixed_int.md R87). -/
  | wrU32Le
  /-- `RD.U64.BE`, byte 0x08 (40_fixed_int.md R88). -/
  | rdU64Be
  /-- `RD.U64.LE`, byte 0x09 (40_fixed_int.md R88). -/
  | rdU64Le
  /-- `WR.U64.BE`, byte 0x0A (40_fixed_int.md R89). -/
  | wrU64Be
  /-- `WR.U64.LE`, byte 0x0B (40_fixed_int.md R89). -/
  | wrU64Le
  /-- `RD.U128.BE`, byte 0x0C (40_fixed_int.md R90). -/
  | rdU128Be
  /-- `RD.U128.LE`, byte 0x0D (40_fixed_int.md R90). -/
  | rdU128Le
  /-- `WR.U128.BE`, byte 0x0E (40_fixed_int.md R91). -/
  | wrU128Be
  /-- `WR.U128.LE`, byte 0x0F (40_fixed_int.md R91). -/
  | wrU128Le
  /-- `RD.I16.BE`, byte 0x10 (40_fixed_int.md R92). -/
  | rdI16Be
  /-- `RD.I16.LE`, byte 0x11 (40_fixed_int.md R92). -/
  | rdI16Le
  /-- `WR.I16.BE`, byte 0x12 (40_fixed_int.md R93). -/
  | wrI16Be
  /-- `WR.I16.LE`, byte 0x13 (40_fixed_int.md R93). -/
  | wrI16Le
  /-- `RD.I32.BE`, byte 0x14 (40_fixed_int.md R94). -/
  | rdI32Be
  /-- `RD.I32.LE`, byte 0x15 (40_fixed_int.md R94). -/
  | rdI32Le
  /-- `WR.I32.BE`, byte 0x16 (40_fixed_int.md R95). -/
  | wrI32Be
  /-- `WR.I32.LE`, byte 0x17 (40_fixed_int.md R95). -/
  | wrI32Le
  /-- `RD.I64.BE`, byte 0x18 (40_fixed_int.md R96). -/
  | rdI64Be
  /-- `RD.I64.LE`, byte 0x19 (40_fixed_int.md R96). -/
  | rdI64Le
  /-- `WR.I64.BE`, byte 0x1A (40_fixed_int.md R97). -/
  | wrI64Be
  /-- `WR.I64.LE`, byte 0x1B (40_fixed_int.md R97). -/
  | wrI64Le
  /-- `RD.I128.BE`, byte 0x1C (40_fixed_int.md R98). -/
  | rdI128Be
  /-- `RD.I128.LE`, byte 0x1D (40_fixed_int.md R98). -/
  | rdI128Le
  /-- `WR.I128.BE`, byte 0x1E (40_fixed_int.md R99). -/
  | wrI128Be
  /-- `WR.I128.LE`, byte 0x1F (40_fixed_int.md R99). -/
  | wrI128Le
  /-- `RD.F32.BE`, byte 0x24 (42_float.md R153). -/
  | rdF32Be
  /-- `RD.F32.LE`, byte 0x25 (42_float.md R153). -/
  | rdF32Le
  /-- `WR.F32.BE`, byte 0x26 (42_float.md R154). -/
  | wrF32Be
  /-- `WR.F32.LE`, byte 0x27 (42_float.md R154). -/
  | wrF32Le
  /-- `RD.F64.BE`, byte 0x28 (42_float.md R155). -/
  | rdF64Be
  /-- `RD.F64.LE`, byte 0x29 (42_float.md R155). -/
  | rdF64Le
  /-- `WR.F64.BE`, byte 0x2A (42_float.md R156). -/
  | wrF64Be
  /-- `WR.F64.LE`, byte 0x2B (42_float.md R156). -/
  | wrF64Le
  /-- `RD.UINT.BE`, byte 0x48 (41_nbyte_int.md R129). -/
  | rdUintBe
  /-- `RD.UINT.LE`, byte 0x49 (41_nbyte_int.md R129). -/
  | rdUintLe
  /-- `WR.UINT.BE`, byte 0x4A (41_nbyte_int.md R130). -/
  | wrUintBe
  /-- `WR.UINT.LE`, byte 0x4B (41_nbyte_int.md R130). -/
  | wrUintLe
  /-- `RD.UINT128.BE`, byte 0x4C (41_nbyte_int.md R133). -/
  | rdUint128Be
  /-- `RD.UINT128.LE`, byte 0x4D (41_nbyte_int.md R133). -/
  | rdUint128Le
  /-- `WR.UINT128.BE`, byte 0x4E (41_nbyte_int.md R134). -/
  | wrUint128Be
  /-- `WR.UINT128.LE`, byte 0x4F (41_nbyte_int.md R134). -/
  | wrUint128Le
  /-- `RD.INT.BE`, byte 0x58 (41_nbyte_int.md R131). -/
  | rdIntBe
  /-- `RD.INT.LE`, byte 0x59 (41_nbyte_int.md R131). -/
  | rdIntLe
  /-- `WR.INT.BE`, byte 0x5A (41_nbyte_int.md R132). -/
  | wrIntBe
  /-- `WR.INT.LE`, byte 0x5B (41_nbyte_int.md R132). -/
  | wrIntLe
  /-- `RD.INT128.BE`, byte 0x5C (41_nbyte_int.md R135). -/
  | rdInt128Be
  /-- `RD.INT128.LE`, byte 0x5D (41_nbyte_int.md R135). -/
  | rdInt128Le
  /-- `WR.INT128.BE`, byte 0x5E (41_nbyte_int.md R136). -/
  | wrInt128Be
  /-- `WR.INT128.LE`, byte 0x5F (41_nbyte_int.md R136). -/
  | wrInt128Le
  /-- `RD.FLOAT.BE`, byte 0x68 (42_float.md R157). -/
  | rdFloatBe
  /-- `RD.FLOAT.LE`, byte 0x69 (42_float.md R157). -/
  | rdFloatLe
  deriving DecidableEq, Repr

end Sys2Proof
end

