-- ==== Sys2Proof/Ports.lean ====
section
/-! DEFINITION. What passes between the host and the block: the request ports, the responses, and the host's moves
(10_state.md R21 and R22, 60_exceptions.md R181, 70_reset_and_hazards.md R216). -/

namespace Sys2Proof

/-- A command as the host presents it: the tuple (CMD, NB, VAL, BASE, LEN) (10_state.md R21).
The ranges of BASE and LEN are the ports' own. -/
structure Request where
  /-- CMD, the command byte. -/
  cmd : Byte
  /-- NB, the byte count `nbytes`, 0 to 255; read by the n-byte kinds only. -/
  nb : BitVec 8
  /-- VAL, the value to encode; read by write commands only. -/
  val : Value
  /-- BASE, 0 to 2^32 - 1: where the slice begins in BUFMEM. -/
  base : Fin 4294967296
  /-- LEN, 0 to 2^32: the slice's length. -/
  len : Fin 4294967297
  deriving DecidableEq, Repr

/-- The four fault causes (60_exceptions.md R181). -/
inductive Cause where
  /-- Code 1: CMD is not one of the 58 legal bytes. -/
  | illegalCmd
  /-- Code 2: NB is 0 or above the container's byte count. -/
  | nbytesRange
  /-- Code 3: the value does not fit in NB bytes. -/
  | valueRange
  /-- Code 4: LEN is below the byte width of the access. -/
  | shortBuf
  deriving DecidableEq, Repr

/-- How a command's step ends (10_state.md R22). -/
inductive Response where
  /-- DONE with no result: a write command. -/
  | done
  /-- DONE with RES: a read command. -/
  | doneRes (res : Value)
  /-- FAULT(cause). -/
  | fault (cause : Cause)
  deriving DecidableEq, Repr

/-- What the host gets back from one of its moves (70_reset_and_hazards.md R216, last column). -/
inductive Answer where
  /-- The response of a command. -/
  | response (r : Response)
  /-- The byte of BUFMEM it read. -/
  | byte (b : Byte)
  /-- The STATUS port: HALTED in bit 0, CAUSE in bits 3:1. -/
  | status (st : BitVec 4)
  deriving DecidableEq, Repr

/-- What the host may do (70_reset_and_hazards.md R216). -/
inductive HostMove where
  /-- Present a command. -/
  | command (r : Request)
  /-- Read the byte of BUFMEM at an address. -/
  | readByte (a : Nat)
  /-- Write a byte of BUFMEM. -/
  | writeByte (a : Nat) (b : Byte)
  /-- Read STATUS. -/
  | readStatus
  /-- Cause the reset event. -/
  | reset
  deriving DecidableEq, Repr

end Sys2Proof
end

