-- ==== Sys2Proof/WellFormed.lean ====
section
/-! DEFINITION. Which commands exist on an implementation, and which requests the host may present
(00_scope.md R6, 30_encoding.md R67, 20_memory.md R47). A command byte carries no operand, so an instruction has no field
that could be ill-formed in another way. -/

namespace Sys2Proof

/-- Whether a command exists only because EXT128 = 1: those with WSEL = 3 (00_scope.md R6, 30_encoding.md R67). -/
def Instr.needsExt128 : Instr → Bool
  | .rdU128Be | .rdU128Le | .wrU128Be | .wrU128Le | .rdI128Be | .rdI128Le
  | .wrI128Be | .wrI128Le | .rdUint128Be | .rdUint128Le | .wrUint128Be | .wrUint128Le
  | .rdInt128Be | .rdInt128Le | .wrInt128Be | .wrInt128Le => true
  | .rdU16Be | .rdU16Le | .wrU16Be | .wrU16Le | .rdU32Be | .rdU32Le
  | .wrU32Be | .wrU32Le | .rdU64Be | .rdU64Le | .wrU64Be | .wrU64Le
  | .rdI16Be | .rdI16Le | .wrI16Be | .wrI16Le | .rdI32Be | .rdI32Le
  | .wrI32Be | .wrI32Le | .rdI64Be | .rdI64Le | .wrI64Be | .wrI64Le
  | .rdF32Be | .rdF32Le | .wrF32Be | .wrF32Le | .rdF64Be | .rdF64Le
  | .wrF64Be | .wrF64Le | .rdUintBe | .rdUintLe | .wrUintBe | .wrUintLe
  | .rdIntBe | .rdIntLe | .wrIntBe | .wrIntLe | .rdFloatBe | .rdFloatLe => false

/-- A command an implementation with the given EXT128 has (00_scope.md R6). -/
def Instr.wellFormed (ext128 : Bool) (i : Instr) : Bool := ext128 || !i.needsExt128

/-- The host's duty for a request: BASE + LEN <= BUFSZ (20_memory.md R47). -/
def Request.wellFormed (bufsz : Nat) (r : Request) : Bool := decide (r.base.val + r.len.val ≤ bufsz)

end Sys2Proof
end

