-- ==== Sys2Proof/Decode.lean ====
section
/-! DEFINITION. The decoder of the command byte, total on all 256 values and rejecting by name (30_encoding.md R60 to
R70), and the encoder written from the same fields. Operands are not in the command byte (R68). -/

namespace Sys2Proof

/-- Why a command byte is illegal: the rows of the table of 30_encoding.md R67. -/
inductive IllegalReason where
  /-- 0x80..0xFF: Z = 1 (30_encoding.md R65). -/
  | zBitSet
  /-- 0x30..0x3F and 0x70..0x7F: KIND 3 and KIND 7 are reserved. -/
  | reservedKind
  /-- 0x20..0x23 and 0x2C..0x2F: no 16-bit and no 128-bit float operation. -/
  | noSuchFloat
  /-- 0x40..0x47 and 0x50..0x57: the only containers are 64 and 128 bits. -/
  | noSuchContainer
  /-- 0x60..0x67 and 0x6C..0x6F: `read_float` returns binary64 only. -/
  | floatNotBinary64
  /-- 0x6A and 0x6B: there is no `write_float`. -/
  | noFloatWrite
  /-- WSEL = 3 on an implementation with EXT128 = 0 (00_scope.md R6). -/
  | ext128Absent
  deriving DecidableEq, Repr

/-- The field Z, bit 7 (30_encoding.md R60). -/
def fieldZ (cmd : Byte) : Bool := cmd.getLsbD 7

/-- The field KIND, bits 6:4; codes 3 and 7 are reserved (30_encoding.md R64). -/
def fieldKind (cmd : Byte) : Option Kind :=
  match (cmd.extractLsb' 4 3).toNat with
  | 0 => some .u
  | 1 => some .i
  | 2 => some .f
  | 4 => some .uint
  | 5 => some .int
  | 6 => some .float
  | _ => none

/-- The field WSEL, bits 3:2 (30_encoding.md R63). -/
def fieldWidthSel (cmd : Byte) : WidthSel :=
  match (cmd.extractLsb' 2 2).toNat with
  | 0 => .w16
  | 1 => .w32
  | 2 => .w64
  | _ => .w128

/-- The field DIR, bit 1 (30_encoding.md R62). -/
def fieldDirection (cmd : Byte) : Direction := if cmd.getLsbD 1 then .wr else .rd

/-- The field ORD, bit 0 (30_encoding.md R61). -/
def fieldOrder (cmd : Byte) : ByteOrder := if cmd.getLsbD 0 then .le else .be

/-- The row of the table of 30_encoding.md R66 that a tuple (KIND, WSEL, DIR, ORD) names, or why it names none
(R67, R70). -/
def instrOfFields (k : Kind) (w : WidthSel) (d : Direction) (o : ByteOrder) : Except IllegalReason Instr :=
  match k, w, d, o with
  | .u, .w16, .rd, .be => .ok .rdU16Be
  | .u, .w16, .rd, .le => .ok .rdU16Le
  | .u, .w16, .wr, .be => .ok .wrU16Be
  | .u, .w16, .wr, .le => .ok .wrU16Le
  | .u, .w32, .rd, .be => .ok .rdU32Be
  | .u, .w32, .rd, .le => .ok .rdU32Le
  | .u, .w32, .wr, .be => .ok .wrU32Be
  | .u, .w32, .wr, .le => .ok .wrU32Le
  | .u, .w64, .rd, .be => .ok .rdU64Be
  | .u, .w64, .rd, .le => .ok .rdU64Le
  | .u, .w64, .wr, .be => .ok .wrU64Be
  | .u, .w64, .wr, .le => .ok .wrU64Le
  | .u, .w128, .rd, .be => .ok .rdU128Be
  | .u, .w128, .rd, .le => .ok .rdU128Le
  | .u, .w128, .wr, .be => .ok .wrU128Be
  | .u, .w128, .wr, .le => .ok .wrU128Le
  | .i, .w16, .rd, .be => .ok .rdI16Be
  | .i, .w16, .rd, .le => .ok .rdI16Le
  | .i, .w16, .wr, .be => .ok .wrI16Be
  | .i, .w16, .wr, .le => .ok .wrI16Le
  | .i, .w32, .rd, .be => .ok .rdI32Be
  | .i, .w32, .rd, .le => .ok .rdI32Le
  | .i, .w32, .wr, .be => .ok .wrI32Be
  | .i, .w32, .wr, .le => .ok .wrI32Le
  | .i, .w64, .rd, .be => .ok .rdI64Be
  | .i, .w64, .rd, .le => .ok .rdI64Le
  | .i, .w64, .wr, .be => .ok .wrI64Be
  | .i, .w64, .wr, .le => .ok .wrI64Le
  | .i, .w128, .rd, .be => .ok .rdI128Be
  | .i, .w128, .rd, .le => .ok .rdI128Le
  | .i, .w128, .wr, .be => .ok .wrI128Be
  | .i, .w128, .wr, .le => .ok .wrI128Le
  | .f, .w32, .rd, .be => .ok .rdF32Be
  | .f, .w32, .rd, .le => .ok .rdF32Le
  | .f, .w32, .wr, .be => .ok .wrF32Be
  | .f, .w32, .wr, .le => .ok .wrF32Le
  | .f, .w64, .rd, .be => .ok .rdF64Be
  | .f, .w64, .rd, .le => .ok .rdF64Le
  | .f, .w64, .wr, .be => .ok .wrF64Be
  | .f, .w64, .wr, .le => .ok .wrF64Le
  | .uint, .w64, .rd, .be => .ok .rdUintBe
  | .uint, .w64, .rd, .le => .ok .rdUintLe
  | .uint, .w64, .wr, .be => .ok .wrUintBe
  | .uint, .w64, .wr, .le => .ok .wrUintLe
  | .uint, .w128, .rd, .be => .ok .rdUint128Be
  | .uint, .w128, .rd, .le => .ok .rdUint128Le
  | .uint, .w128, .wr, .be => .ok .wrUint128Be
  | .uint, .w128, .wr, .le => .ok .wrUint128Le
  | .int, .w64, .rd, .be => .ok .rdIntBe
  | .int, .w64, .rd, .le => .ok .rdIntLe
  | .int, .w64, .wr, .be => .ok .wrIntBe
  | .int, .w64, .wr, .le => .ok .wrIntLe
  | .int, .w128, .rd, .be => .ok .rdInt128Be
  | .int, .w128, .rd, .le => .ok .rdInt128Le
  | .int, .w128, .wr, .be => .ok .wrInt128Be
  | .int, .w128, .wr, .le => .ok .wrInt128Le
  | .float, .w64, .rd, .be => .ok .rdFloatBe
  | .float, .w64, .rd, .le => .ok .rdFloatLe
  | .f, .w16, _, _ => .error .noSuchFloat
  | .f, .w128, _, _ => .error .noSuchFloat
  | .uint, .w16, _, _ => .error .noSuchContainer
  | .uint, .w32, _, _ => .error .noSuchContainer
  | .int, .w16, _, _ => .error .noSuchContainer
  | .int, .w32, _, _ => .error .noSuchContainer
  | .float, .w64, .wr, _ => .error .noFloatWrite
  | .float, .w16, _, _ => .error .floatNotBinary64
  | .float, .w32, _, _ => .error .floatNotBinary64
  | .float, .w128, _, _ => .error .floatNotBinary64

/-- The decoder for an implementation with the given EXT128 (30_encoding.md R70; R67 for EXT128 = 0). -/
def decodeWith (ext128 : Bool) (cmd : Byte) : Except IllegalReason Instr :=
  if fieldZ cmd then .error .zBitSet
  else
    match fieldKind cmd with
    | none => .error .reservedKind
    | some k =>
      match instrOfFields k (fieldWidthSel cmd) (fieldDirection cmd) (fieldOrder cmd) with
      | .ok i => if i.wellFormed ext128 then .ok i else .error .ext128Absent
      | .error e => .error e

/-- The decoder of this hardware (EXT128 = 1, 00_scope.md R6). -/
def decode (cmd : Byte) : Except IllegalReason Instr := decodeWith Config.ext128 cmd

/-- The tuple (KIND, WSEL, DIR, ORD) of a command: its row of 30_encoding.md R66. -/
def Instr.fields : Instr → Kind × WidthSel × Direction × ByteOrder
  | .rdU16Be => (.u, .w16, .rd, .be)
  | .rdU16Le => (.u, .w16, .rd, .le)
  | .wrU16Be => (.u, .w16, .wr, .be)
  | .wrU16Le => (.u, .w16, .wr, .le)
  | .rdU32Be => (.u, .w32, .rd, .be)
  | .rdU32Le => (.u, .w32, .rd, .le)
  | .wrU32Be => (.u, .w32, .wr, .be)
  | .wrU32Le => (.u, .w32, .wr, .le)
  | .rdU64Be => (.u, .w64, .rd, .be)
  | .rdU64Le => (.u, .w64, .rd, .le)
  | .wrU64Be => (.u, .w64, .wr, .be)
  | .wrU64Le => (.u, .w64, .wr, .le)
  | .rdU128Be => (.u, .w128, .rd, .be)
  | .rdU128Le => (.u, .w128, .rd, .le)
  | .wrU128Be => (.u, .w128, .wr, .be)
  | .wrU128Le => (.u, .w128, .wr, .le)
  | .rdI16Be => (.i, .w16, .rd, .be)
  | .rdI16Le => (.i, .w16, .rd, .le)
  | .wrI16Be => (.i, .w16, .wr, .be)
  | .wrI16Le => (.i, .w16, .wr, .le)
  | .rdI32Be => (.i, .w32, .rd, .be)
  | .rdI32Le => (.i, .w32, .rd, .le)
  | .wrI32Be => (.i, .w32, .wr, .be)
  | .wrI32Le => (.i, .w32, .wr, .le)
  | .rdI64Be => (.i, .w64, .rd, .be)
  | .rdI64Le => (.i, .w64, .rd, .le)
  | .wrI64Be => (.i, .w64, .wr, .be)
  | .wrI64Le => (.i, .w64, .wr, .le)
  | .rdI128Be => (.i, .w128, .rd, .be)
  | .rdI128Le => (.i, .w128, .rd, .le)
  | .wrI128Be => (.i, .w128, .wr, .be)
  | .wrI128Le => (.i, .w128, .wr, .le)
  | .rdF32Be => (.f, .w32, .rd, .be)
  | .rdF32Le => (.f, .w32, .rd, .le)
  | .wrF32Be => (.f, .w32, .wr, .be)
  | .wrF32Le => (.f, .w32, .wr, .le)
  | .rdF64Be => (.f, .w64, .rd, .be)
  | .rdF64Le => (.f, .w64, .rd, .le)
  | .wrF64Be => (.f, .w64, .wr, .be)
  | .wrF64Le => (.f, .w64, .wr, .le)
  | .rdUintBe => (.uint, .w64, .rd, .be)
  | .rdUintLe => (.uint, .w64, .rd, .le)
  | .wrUintBe => (.uint, .w64, .wr, .be)
  | .wrUintLe => (.uint, .w64, .wr, .le)
  | .rdUint128Be => (.uint, .w128, .rd, .be)
  | .rdUint128Le => (.uint, .w128, .rd, .le)
  | .wrUint128Be => (.uint, .w128, .wr, .be)
  | .wrUint128Le => (.uint, .w128, .wr, .le)
  | .rdIntBe => (.int, .w64, .rd, .be)
  | .rdIntLe => (.int, .w64, .rd, .le)
  | .wrIntBe => (.int, .w64, .wr, .be)
  | .wrIntLe => (.int, .w64, .wr, .le)
  | .rdInt128Be => (.int, .w128, .rd, .be)
  | .rdInt128Le => (.int, .w128, .rd, .le)
  | .wrInt128Be => (.int, .w128, .wr, .be)
  | .wrInt128Le => (.int, .w128, .wr, .le)
  | .rdFloatBe => (.float, .w64, .rd, .be)
  | .rdFloatLe => (.float, .w64, .rd, .le)

/-- KIND's code (30_encoding.md R64). -/
def kindCode : Kind → Nat
  | .u => 0
  | .i => 1
  | .f => 2
  | .uint => 4
  | .int => 5
  | .float => 6

/-- WSEL's code (30_encoding.md R63). -/
def widthSelCode : WidthSel → Nat
  | .w16 => 0
  | .w32 => 1
  | .w64 => 2
  | .w128 => 3

/-- DIR's code (30_encoding.md R62). -/
def directionCode : Direction → Nat
  | .rd => 0
  | .wr => 1

/-- ORD's code (30_encoding.md R61). -/
def orderCode : ByteOrder → Nat
  | .be => 0
  | .le => 1

/-- The command byte of a tuple of fields: CMD = Z*128 + KIND*16 + WSEL*4 + DIR*2 + ORD with Z = 0 (30_encoding.md R60). -/
def encodeFields (k : Kind) (w : WidthSel) (d : Direction) (o : ByteOrder) : Byte :=
  BitVec.ofNat 8 (kindCode k * 16 + widthSelCode w * 4 + directionCode d * 2 + orderCode o)

/-- The encoder: the command byte of a command (30_encoding.md R60, R66). -/
def encode (i : Instr) : Byte := encodeFields i.fields.1 i.fields.2.1 i.fields.2.2.1 i.fields.2.2.2

/-- Whether the command is a write, DIR = 1 (30_encoding.md R62). -/
def Instr.isWrite (i : Instr) : Bool := i.fields.2.2.1 == .wr

/-- The number of bits of a value of a width (30_encoding.md R63). -/
def widthSelBits : WidthSel → Nat
  | .w16 => 16
  | .w32 => 32
  | .w64 => 64
  | .w128 => 128

/-- Whether the command reads the NB port: bit 6 of CMD (30_encoding.md R64). -/
def Instr.usesNb (i : Instr) : Bool :=
  match i.fields.1 with
  | .uint | .int | .float => true
  | .u | .i | .f => false

/-- The byte width W of the command's access: N/8, or NB for the n-byte kinds (30_encoding.md R63, 20_memory.md R46). -/
def Instr.accessWidth (i : Instr) (nb : BitVec 8) : Nat :=
  if i.usesNb then nb.toNat else widthSelBits i.fields.2.1 / 8

/-- What the decoder reads from a table word of `nbits` bits; the instruction has no bit above them (30_encoding.md R69). -/
def decodeTableWord (nbits w : Nat) : Option Instr :=
  match decode (BitVec.ofNat 8 (w % 2 ^ nbits)) with
  | .ok i => some i
  | .error _ => none

end Sys2Proof
end

