-- ==== Sys2Proof/Machine/State.lean ====
section
/-! DEFINITION. The state of the machine, the reasons a step stops, and the state after reset
(10_state.md R26, R28, R31; 70_reset_and_hazards.md R210, R211). Plain data. -/

namespace Sys2Proof.Machine

/-- BUFMEM as address and byte pairs, addresses strictly rising, none holding what an unlisted address reads as
(`Memory.wf` in Machine/Ops.lean; 10_state.md R28). -/
abbrev Memory := List Host.Cell

/-- STATUS and BUFMEM are all the spec gives the machine (00_scope.md section 6, "State"; 10_state.md R23 to R29).
The other four fields are what a step of block and host reads or leaves besides them (assumption log 1, 2 and 6). -/
structure State where
  /-- STATUS: HALTED in bit 0, CAUSE in bits 3:1 (10_state.md R26). -/
  status : BitVec 4
  /-- BUFMEM (10_state.md R28). -/
  bufmem : Memory
  /-- The parameter BUFSZ, the number of bytes of BUFMEM; no step changes it (00_scope.md R6; log 2). -/
  bufsz : Nat
  /-- The request ports of the command being executed (10_state.md R21; log 1). -/
  ports : Request
  /-- The host's moves still to come, the next one first (70_reset_and_hazards.md R216, R217; log 1). -/
  pending : List HostMove
  /-- What the host has been given back, oldest first (70_reset_and_hazards.md R216, R217; log 6). -/
  answers : List Answer
  deriving DecidableEq, Repr

/-- Why the machine is stuck. -/
inductive Fault where
  /-- Raised by every meaning of a command in a state with HALTED = 1: there "the block agent has no enabled step"
  (60_exceptions.md R186, 93_implementation_defined.md U10). `step` hands no command to a meaning in such a state.
  Safe: the model stops where the block does nothing. -/
  | halted
  deriving DecidableEq, Repr

/-- Why a request has no meaning in the model. -/
inductive Refusal where
  /-- Raised by an arm of `exec` whose command has no meaning yet. Safe: no arm raises it in this package. -/
  | notModelled (mnemonic : String)
  /-- Raised by every meaning of a command whose window does not lie in BUFMEM, BASE + LEN > BUFSZ: "this spec gives
  such a request no meaning: a model refuses it" (20_memory.md R47, 93_implementation_defined.md U5). Safe. -/
  | windowOutsideBufmem
  /-- Raised by the host's reading or writing a byte at an address that BUFMEM, addressed 0..BUFSZ-1, does not have
  (10_state.md R28; log 7). Safe. -/
  | addressOutsideBufmem
  /-- Raised by presenting two commands at once to two instances that share BUFMEM when their accessed bytes overlap
  and one of them writes (60_exceptions.md R196, 93_implementation_defined.md U4). Safe. -/
  | overlappingAccesses
  deriving DecidableEq, Repr

/-- The machine right after power-up and reset: STATUS = 0 (70_reset_and_hazards.md R210, R211). What the spec leaves
open is named in the assumption log: BUFMEM (log 3), BUFSZ (log 2), the ports and the host's moves (log 1), the
answers (log 6). -/
def State.reset : State where
  status := 0#4
  bufmem := []
  bufsz := Config.maxBufSize
  ports := { cmd := 0#8, nb := 0#8, val := 0#128, base := 0, len := 0 }
  pending := []
  answers := []

end Sys2Proof.Machine
end

