-- ==== Sys2Proof/Machine/Flags.lean ====
section
/-! DEFINITION. The STATUS word and its fields (10_state.md R26, 60_exceptions.md R181). The block has no flags and no
condition codes (10_state.md R25): no command computes one. -/

namespace Sys2Proof.Machine

/-- The code of a fault cause (60_exceptions.md R181). -/
def causeCode : Cause → BitVec 3
  | .illegalCmd => 1#3
  | .nbytesRange => 2#3
  | .valueRange => 3#3
  | .shortBuf => 4#3

/-- HALTED, bit 0 of STATUS (10_state.md R26). -/
def statusHalted (st : BitVec 4) : Bool := st.getLsbD 0

/-- CAUSE, bits 3:1 of STATUS (10_state.md R26). -/
def statusCause (st : BitVec 4) : BitVec 3 := st.extractLsb' 1 3

/-- STATUS after fault entry: CAUSE <- code, HALTED <- 1 (60_exceptions.md R184). -/
def statusOfFault (c : Cause) : BitVec 4 := causeCode c ++ 1#1

/-- STATUS after reset: HALTED = 0, CAUSE = 0 (70_reset_and_hazards.md R210). -/
def statusAfterReset : BitVec 4 := 0#4

/-- The legal values of STATUS: 0b0000, and HALTED = 1 with CAUSE in 1..4 (10_state.md R26). -/
def statusLegal (st : BitVec 4) : Bool :=
  st == 0#4 || (statusHalted st && decide (1 ≤ (statusCause st).toNat) && decide ((statusCause st).toNat ≤ 4))

/-- HALTED = 1. -/
def State.halted (s : State) : Bool := statusHalted s.status

end Sys2Proof.Machine
end

