-- ==== Sys2Proof/Machine/Ops.lean ====
section
/-! DEFINITION. The named operations over BUFMEM and STATUS that every meaning is written with: reading and writing
bytes (20_memory.md R44, R45), taking a fault (60_exceptions.md R184), completing (10_state.md R22), reset
(70_reset_and_hazards.md R210), and the conditions under which the block executes a command at all (60_exceptions.md
R186, 20_memory.md R47). The spec has no return from a fault (60_exceptions.md R187): only reset leaves the halted state. -/

namespace Sys2Proof.Machine

/-! ### Memory -/

/-- What a byte of BUFMEM that is not listed reads as (assumption log 3). -/
def unlistedByte : Byte := 0#8

/-- The canonical form of a memory all of whose addresses are at least `lo`. -/
def Memory.wfFrom : Nat → Memory → Bool
  | _, [] => true
  | lo, (k, v) :: m => decide (lo ≤ k) && (v != unlistedByte) && Memory.wfFrom (k + 1) m

/-- The canonical form: addresses strictly rising, none holding `unlistedByte`. -/
def Memory.wf (m : Memory) : Bool := Memory.wfFrom 0 m

/-- Every listed address is one BUFMEM has, 0..BUFSZ-1 (10_state.md R28). -/
def Memory.inside (bufsz : Nat) (m : Memory) : Bool := m.all fun c => decide (c.1 < bufsz)

/-- The byte at an address. -/
def Memory.read : Memory → Nat → Byte
  | [], _ => unlistedByte
  | (k, v) :: m, a => if a = k then v else Memory.read m a

/-- Sets the byte at an address and keeps the canonical form. -/
def Memory.write : Memory → Nat → Byte → Memory
  | [], a, b => if b = unlistedByte then [] else [(a, b)]
  | (k, v) :: m, a, b =>
    if a < k then (if b = unlistedByte then (k, v) :: m else (a, b) :: (k, v) :: m)
    else if a = k then (if b = unlistedByte then m else (a, b) :: m)
    else (k, v) :: Memory.write m a b

/-- The `n` bytes from an address on, in address order. -/
def Memory.readBytes (m : Memory) (a : Nat) : Nat → List Byte
  | 0 => []
  | n + 1 => m.read a :: Memory.readBytes m (a + 1) n

/-- Writes a list of bytes from an address on. -/
def Memory.writeBytes (m : Memory) (a : Nat) : List Byte → Memory
  | [] => m
  | b :: bl => Memory.writeBytes (m.write a b) (a + 1) bl

/-- The byte at offset `i` of the command's slice, BUFMEM[BASE + i] (10_state.md R21, 20_memory.md R58). -/
def State.slice (s : State) (i : Nat) : Byte := s.bufmem.read (s.ports.base.val + i)

/-- MemRead(off, n) (20_memory.md R44). -/
def State.memRead (s : State) (off n : Nat) : List Byte := s.bufmem.readBytes (s.ports.base.val + off) n

/-- MemWrite(off, n, bl), n the length of `bl` (20_memory.md R45). -/
def State.memWrite (s : State) (off : Nat) (bl : List Byte) : State :=
  { s with bufmem := s.bufmem.writeBytes (s.ports.base.val + off) bl }

/-! ### How a command ends -/

/-- The host is given an answer (70_reset_and_hazards.md R216). -/
def State.answer (s : State) (a : Answer) : State := { s with answers := s.answers ++ [a] }

/-- The command completes with DONE and no result (10_state.md R22). -/
def State.done (s : State) : State := s.answer (.response .done)

/-- The command completes with DONE and RES (10_state.md R22). -/
def State.doneRes (s : State) (res : Value) : State := s.answer (.response (.doneRes res))

/-- Fault entry, the whole of a faulting command's step: STATUS.CAUSE <- code, STATUS.HALTED <- 1, response FAULT(code);
BUFMEM unchanged, no RES (60_exceptions.md R184). -/
def State.raise (s : State) (c : Cause) : State :=
  { s with status := statusOfFault c, answers := s.answers ++ [.response (.fault c)] }

/-- The reset event: STATUS <- 0 and nothing else (70_reset_and_hazards.md R210). -/
def State.resetEvent (s : State) : State := { s with status := statusAfterReset }

/-! ### When a command is executed -/

/-- The step of the block for a legal command whose whole effect is `body`: none while HALTED = 1 (60_exceptions.md
R186), none for a window outside BUFMEM (20_memory.md R47), and else `body`. -/
def commandStep (body : State → State) (s : State) : Host.Outcome State Fault Refusal :=
  if s.halted then .fault .halted
  else if s.ports.wellFormed s.bufsz then .next (body s)
  else .refused .windowOutsideBufmem

end Sys2Proof.Machine
end

