-- ==== Sys2Proof/Machine/Operands.lean ====
section
/-! DEFINITION. How a command's operands are read and its value laid out: the lane maps Pack and Unpack (20_memory.md
R41, R42; 43_ordering_selection.md R174), the value and byte-count operands (30_encoding.md R68), the checks of the
n-byte commands and their sign handling (41_nbyte_int.md R120 to R125), and the NaN canonicalizer (42_float.md R151). -/

namespace Sys2Proof.Machine

/-! ### The two lane maps -/

/-- Pack(BE, bl): the first byte is the most significant (20_memory.md R41). -/
def packBe : List Byte → Nat
  | [] => 0
  | b :: bl => b.toNat * 2 ^ (8 * bl.length) + packBe bl

/-- Pack(LE, bl): the first byte is the least significant (20_memory.md R41). -/
def packLe : List Byte → Nat
  | [] => 0
  | b :: bl => b.toNat + 2 ^ 8 * packLe bl

/-- Pack(ord, bl): the unsigned integer a byte list stands for (20_memory.md R41). -/
def pack : ByteOrder → List Byte → Nat
  | .be, bl => packBe bl
  | .le, bl => packLe bl

/-- The byte of the value that slice offset `i` is connected to, in an access of `w` bytes (43_ordering_selection.md
R174). -/
def lane (ord : ByteOrder) (w i : Nat) : Nat :=
  match ord with
  | .be => w - 1 - i
  | .le => i

/-- Byte `k` of a value, `v[8k+7:8k]` (00_scope.md R7). -/
def valueByte (v k : Nat) : Byte := BitVec.ofNat 8 (v / 2 ^ (8 * k))

/-- Unpack(ord, W, v): the W bytes that stand for the low 8W bits of `v` (20_memory.md R42). -/
def unpack (ord : ByteOrder) (w v : Nat) : List Byte := (List.range w).map fun i => valueByte v (lane ord w i)

/-! ### Operands from the ports -/

/-- VAL[N-1:0] (30_encoding.md R68); the bits above are ignored (10_state.md R21). -/
def State.valueOperand (s : State) (n : Nat) : BitVec n := s.ports.val.setWidth n

/-- `nbytes`, the NB port as a number (30_encoding.md R68). -/
def State.nbytes (s : State) : Nat := s.ports.nb.toNat

/-- The nbytes check of a container of `c` bytes (41_nbyte_int.md R120). -/
def nbytesLegal (c nb : Nat) : Bool := decide (1 ≤ nb) && decide (nb ≤ c)

/-! ### Fit checks and sign handling -/

/-- The ladder of power-of-two comparisons from rung `k` on, with `rungs` comparisons left (41_nbyte_int.md R121). -/
def packSizeFrom (n : Nat) : Nat → Nat → Nat
  | k, 0 => k
  | k, rungs + 1 => if n < 2 ^ (8 * k) then k else packSizeFrom n (k + 1) rungs

/-- pack_size(n), 1 to 8 (41_nbyte_int.md R121). -/
def packSize (n : Nat) : Nat := packSizeFrom n 1 7

/-- pack_size128(n), 1 to 16 (41_nbyte_int.md R122). -/
def packSize128 (n : Nat) : Nat := packSizeFrom n 1 15

/-- The shift amount (C - NB) * 8 (41_nbyte_int.md R123). -/
def shiftAmount (c nb : Nat) : Nat := (c - nb) * 8

/-- extend_sign_C(raw, NB): left shift, then arithmetic right shift by the same amount (41_nbyte_int.md R124). -/
def extendSign (c : Nat) (raw : BitVec (8 * c)) (nb : Nat) : BitVec (8 * c) :=
  (raw <<< shiftAmount c nb).sshiftRight (shiftAmount c nb)

/-- unextend_sign_C(v, NB): left shift, then logical right shift by the same amount (41_nbyte_int.md R125). -/
def unextendSign (c : Nat) (v : BitVec (8 * c)) (nb : Nat) : BitVec (8 * c) :=
  (v <<< shiftAmount c nb) >>> shiftAmount c nb

/-- FitsSigned_C(v, NB): masking and extending again gives the value back (41_nbyte_int.md R125). -/
def fitsSigned (c : Nat) (v : BitVec (8 * c)) (nb : Nat) : Bool := extendSign c (unextendSign c v nb) nb == v

/-! ### The canonicalizer -/

/-- IsSNaN32(b) (42_float.md R151, field positions of R150). -/
def isSNaN32 (b : BitVec 32) : Bool :=
  b.extractLsb' 23 8 == 0xFF#8 && b.extractLsb' 0 23 != 0#23 && !b.getLsbD 22

/-- Canon32(b): a signaling NaN gets its quiet bit, bit 22, set (42_float.md R151). -/
def canon32 (b : BitVec 32) : BitVec 32 := if isSNaN32 b then b ||| 0x00400000#32 else b

/-- IsSNaN64(b) (42_float.md R151; the positions of R150 rest on general knowledge, assumption log 10). -/
def isSNaN64 (b : BitVec 64) : Bool :=
  b.extractLsb' 52 11 == 0x7FF#11 && b.extractLsb' 0 52 != 0#52 && !b.getLsbD 51

/-- Canon64(b): a signaling NaN gets its quiet bit, bit 51, set (42_float.md R151). -/
def canon64 (b : BitVec 64) : BitVec 64 := if isSNaN64 b then b ||| 0x0008000000000000#64 else b

/-! ### The two accesses -/

/-- A read of `w` bytes from the length check on: SHORT_BUF when LEN < W, else RES is `result` of Pack of the first `w`
bytes of the slice (40_fixed_int.md R81, 41_nbyte_int.md R126). -/
def readAccess (w : Nat) (ord : ByteOrder) (result : Nat → Value) (s : State) : State :=
  if s.ports.len.val < w then s.raise .shortBuf else s.doneRes (result (pack ord (s.memRead 0 w)))

/-- A write of the `w` low bytes of `v` from the length check on (40_fixed_int.md R82, 41_nbyte_int.md R130). -/
def writeAccess (w : Nat) (ord : ByteOrder) (v : Nat) (s : State) : State :=
  if s.ports.len.val < w then s.raise .shortBuf else (s.memWrite 0 (unpack ord w v)).done

end Sys2Proof.Machine
end

