-- ==== Sys2Proof/Machine/FixedInt.lean ====
section
/-! DEFINITION. The fixed-width integer commands (40_fixed_int.md): FixedRead and FixedWrite, and the 32 commands 0x00..0x1F. -/

namespace Sys2Proof.Machine

/-- FixedRead(N, ord) (40_fixed_int.md R81). -/
def fixedRead (n : Nat) (ord : ByteOrder) (s : State) : Host.Outcome State Fault Refusal :=
  commandStep (readAccess (n / 8) ord (BitVec.ofNat 128)) s

/-- FixedWrite(N, ord): every N-bit pattern is writable (40_fixed_int.md R82). -/
def fixedWrite (n : Nat) (ord : ByteOrder) (s : State) : Host.Outcome State Fault Refusal :=
  commandStep (fun s => writeAccess (n / 8) ord (s.valueOperand n).toNat s) s

/-- `RD.U16.BE` (40_fixed_int.md R84). -/
def execRdU16Be (s : State) : Host.Outcome State Fault Refusal := fixedRead 16 .be s

/-- `RD.U16.LE` (40_fixed_int.md R84). -/
def execRdU16Le (s : State) : Host.Outcome State Fault Refusal := fixedRead 16 .le s

/-- `WR.U16.BE` (40_fixed_int.md R85). -/
def execWrU16Be (s : State) : Host.Outcome State Fault Refusal := fixedWrite 16 .be s

/-- `WR.U16.LE` (40_fixed_int.md R85). -/
def execWrU16Le (s : State) : Host.Outcome State Fault Refusal := fixedWrite 16 .le s

/-- `RD.U32.BE` (40_fixed_int.md R86). -/
def execRdU32Be (s : State) : Host.Outcome State Fault Refusal := fixedRead 32 .be s

/-- `RD.U32.LE` (40_fixed_int.md R86). -/
def execRdU32Le (s : State) : Host.Outcome State Fault Refusal := fixedRead 32 .le s

/-- `WR.U32.BE` (40_fixed_int.md R87). -/
def execWrU32Be (s : State) : Host.Outcome State Fault Refusal := fixedWrite 32 .be s

/-- `WR.U32.LE` (40_fixed_int.md R87). -/
def execWrU32Le (s : State) : Host.Outcome State Fault Refusal := fixedWrite 32 .le s

/-- `RD.U64.BE` (40_fixed_int.md R88). -/
def execRdU64Be (s : State) : Host.Outcome State Fault Refusal := fixedRead 64 .be s

/-- `RD.U64.LE` (40_fixed_int.md R88). -/
def execRdU64Le (s : State) : Host.Outcome State Fault Refusal := fixedRead 64 .le s

/-- `WR.U64.BE` (40_fixed_int.md R89). -/
def execWrU64Be (s : State) : Host.Outcome State Fault Refusal := fixedWrite 64 .be s

/-- `WR.U64.LE` (40_fixed_int.md R89). -/
def execWrU64Le (s : State) : Host.Outcome State Fault Refusal := fixedWrite 64 .le s

/-- `RD.U128.BE` (40_fixed_int.md R90). -/
def execRdU128Be (s : State) : Host.Outcome State Fault Refusal := fixedRead 128 .be s

/-- `RD.U128.LE` (40_fixed_int.md R90). -/
def execRdU128Le (s : State) : Host.Outcome State Fault Refusal := fixedRead 128 .le s

/-- `WR.U128.BE` (40_fixed_int.md R91). -/
def execWrU128Be (s : State) : Host.Outcome State Fault Refusal := fixedWrite 128 .be s

/-- `WR.U128.LE` (40_fixed_int.md R91). -/
def execWrU128Le (s : State) : Host.Outcome State Fault Refusal := fixedWrite 128 .le s

/-- `RD.I16.BE` (40_fixed_int.md R92). -/
def execRdI16Be (s : State) : Host.Outcome State Fault Refusal := fixedRead 16 .be s

/-- `RD.I16.LE` (40_fixed_int.md R92). -/
def execRdI16Le (s : State) : Host.Outcome State Fault Refusal := fixedRead 16 .le s

/-- `WR.I16.BE` (40_fixed_int.md R93). -/
def execWrI16Be (s : State) : Host.Outcome State Fault Refusal := fixedWrite 16 .be s

/-- `WR.I16.LE` (40_fixed_int.md R93). -/
def execWrI16Le (s : State) : Host.Outcome State Fault Refusal := fixedWrite 16 .le s

/-- `RD.I32.BE` (40_fixed_int.md R94). -/
def execRdI32Be (s : State) : Host.Outcome State Fault Refusal := fixedRead 32 .be s

/-- `RD.I32.LE` (40_fixed_int.md R94). -/
def execRdI32Le (s : State) : Host.Outcome State Fault Refusal := fixedRead 32 .le s

/-- `WR.I32.BE` (40_fixed_int.md R95). -/
def execWrI32Be (s : State) : Host.Outcome State Fault Refusal := fixedWrite 32 .be s

/-- `WR.I32.LE` (40_fixed_int.md R95). -/
def execWrI32Le (s : State) : Host.Outcome State Fault Refusal := fixedWrite 32 .le s

/-- `RD.I64.BE` (40_fixed_int.md R96). -/
def execRdI64Be (s : State) : Host.Outcome State Fault Refusal := fixedRead 64 .be s

/-- `RD.I64.LE` (40_fixed_int.md R96). -/
def execRdI64Le (s : State) : Host.Outcome State Fault Refusal := fixedRead 64 .le s

/-- `WR.I64.BE` (40_fixed_int.md R97). -/
def execWrI64Be (s : State) : Host.Outcome State Fault Refusal := fixedWrite 64 .be s

/-- `WR.I64.LE` (40_fixed_int.md R97). -/
def execWrI64Le (s : State) : Host.Outcome State Fault Refusal := fixedWrite 64 .le s

/-- `RD.I128.BE` (40_fixed_int.md R98). -/
def execRdI128Be (s : State) : Host.Outcome State Fault Refusal := fixedRead 128 .be s

/-- `RD.I128.LE` (40_fixed_int.md R98). -/
def execRdI128Le (s : State) : Host.Outcome State Fault Refusal := fixedRead 128 .le s

/-- `WR.I128.BE` (40_fixed_int.md R99). -/
def execWrI128Be (s : State) : Host.Outcome State Fault Refusal := fixedWrite 128 .be s

/-- `WR.I128.LE` (40_fixed_int.md R99). -/
def execWrI128Le (s : State) : Host.Outcome State Fault Refusal := fixedWrite 128 .le s

end Sys2Proof.Machine
end

