-- ==== Sys2Proof/Machine/NByteInt.lean ====
section
/-! DEFINITION. The n-byte integer commands (41_nbyte_int.md), for a container of `c` bytes: 8 or 16. The checks come in the order of R127:
the byte count, the value, the slice length. -/

namespace Sys2Proof.Machine

/-- The value check of an n-byte write, then the write: VALUE_RANGE unless `fits` (41_nbyte_int.md R127). -/
def checkedWrite (fits : Bool) (nb : Nat) (ord : ByteOrder) (v : Nat) (s : State) : State :=
  if fits then writeAccess nb ord v s else s.raise .valueRange

/-- An n-byte command after the nbytes check: `body` gets a legal NB (41_nbyte_int.md R120). -/
def nbyteCommand (c : Nat) (body : Nat → State → State) (s : State) : Host.Outcome State Fault Refusal :=
  commandStep (fun s => if nbytesLegal c s.nbytes then body s.nbytes s else s.raise .nbytesRange) s

/-- An n-byte read whose result is a function of NB and the packed bytes (41_nbyte_int.md R126). -/
def nbyteRead (c : Nat) (ord : ByteOrder) (result : Nat → Nat → Value) (s : State) :
    Host.Outcome State Fault Refusal :=
  nbyteCommand c (fun nb => readAccess nb ord (result nb)) s

/-- An n-byte write with the value check `fits` and the written number `v`, both functions of NB and the ports
(41_nbyte_int.md R127). -/
def nbyteWrite (c : Nat) (ord : ByteOrder) (fits : Nat → State → Bool) (v : Nat → State → Nat) (s : State) :
    Host.Outcome State Fault Refusal :=
  nbyteCommand c (fun nb s => checkedWrite (fits nb s) nb ord (v nb s) s) s

/-- RD.UINT and RD.UINT128: the NB bytes zero-extended (41_nbyte_int.md R129, R133). -/
def readUint (c : Nat) (ord : ByteOrder) (s : State) : Host.Outcome State Fault Refusal :=
  nbyteRead c ord (fun _ raw => BitVec.ofNat 128 raw) s

/-- RD.INT and RD.INT128: the NB bytes sign-extended to the container, zero above it (41_nbyte_int.md R131, R135). -/
def readInt (c : Nat) (ord : ByteOrder) (s : State) : Host.Outcome State Fault Refusal :=
  nbyteRead c ord (fun nb raw => (extendSign c (BitVec.ofNat (8 * c) raw) nb).setWidth 128) s

/-- WR.UINT and WR.UINT128: `size n` is pack_size or pack_size128 (41_nbyte_int.md R130, R134). -/
def writeUint (c : Nat) (size : Nat → Nat) (ord : ByteOrder) (s : State) : Host.Outcome State Fault Refusal :=
  nbyteWrite c ord (fun nb s => decide (size (s.valueOperand (8 * c)).toNat ≤ nb))
    (fun _ s => (s.valueOperand (8 * c)).toNat) s

/-- WR.INT and WR.INT128: the signed fit, then the masked value (41_nbyte_int.md R132, R136). -/
def writeInt (c : Nat) (ord : ByteOrder) (s : State) : Host.Outcome State Fault Refusal :=
  nbyteWrite c ord (fun nb s => fitsSigned c (s.valueOperand (8 * c)) nb)
    (fun nb s => (unextendSign c (s.valueOperand (8 * c)) nb).toNat) s

/-- `RD.UINT.BE` (41_nbyte_int.md R129). -/
def execRdUintBe (s : State) : Host.Outcome State Fault Refusal := readUint 8 .be s

/-- `RD.UINT.LE` (41_nbyte_int.md R129). -/
def execRdUintLe (s : State) : Host.Outcome State Fault Refusal := readUint 8 .le s

/-- `WR.UINT.BE` (41_nbyte_int.md R130). -/
def execWrUintBe (s : State) : Host.Outcome State Fault Refusal := writeUint 8 packSize .be s

/-- `WR.UINT.LE` (41_nbyte_int.md R130). -/
def execWrUintLe (s : State) : Host.Outcome State Fault Refusal := writeUint 8 packSize .le s

/-- `RD.UINT128.BE` (41_nbyte_int.md R133). -/
def execRdUint128Be (s : State) : Host.Outcome State Fault Refusal := readUint 16 .be s

/-- `RD.UINT128.LE` (41_nbyte_int.md R133). -/
def execRdUint128Le (s : State) : Host.Outcome State Fault Refusal := readUint 16 .le s

/-- `WR.UINT128.BE` (41_nbyte_int.md R134). -/
def execWrUint128Be (s : State) : Host.Outcome State Fault Refusal := writeUint 16 packSize128 .be s

/-- `WR.UINT128.LE` (41_nbyte_int.md R134). -/
def execWrUint128Le (s : State) : Host.Outcome State Fault Refusal := writeUint 16 packSize128 .le s

/-- `RD.INT.BE` (41_nbyte_int.md R131). -/
def execRdIntBe (s : State) : Host.Outcome State Fault Refusal := readInt 8 .be s

/-- `RD.INT.LE` (41_nbyte_int.md R131). -/
def execRdIntLe (s : State) : Host.Outcome State Fault Refusal := readInt 8 .le s

/-- `WR.INT.BE` (41_nbyte_int.md R132). -/
def execWrIntBe (s : State) : Host.Outcome State Fault Refusal := writeInt 8 .be s

/-- `WR.INT.LE` (41_nbyte_int.md R132). -/
def execWrIntLe (s : State) : Host.Outcome State Fault Refusal := writeInt 8 .le s

/-- `RD.INT128.BE` (41_nbyte_int.md R135). -/
def execRdInt128Be (s : State) : Host.Outcome State Fault Refusal := readInt 16 .be s

/-- `RD.INT128.LE` (41_nbyte_int.md R135). -/
def execRdInt128Le (s : State) : Host.Outcome State Fault Refusal := readInt 16 .le s

/-- `WR.INT128.BE` (41_nbyte_int.md R136). -/
def execWrInt128Be (s : State) : Host.Outcome State Fault Refusal := writeInt 16 .be s

/-- `WR.INT128.LE` (41_nbyte_int.md R136). -/
def execWrInt128Le (s : State) : Host.Outcome State Fault Refusal := writeInt 16 .le s

end Sys2Proof.Machine
end

