-- ==== Sys2Proof/Machine/Float.lean ====
section
/-! DEFINITION. The floating-point commands (42_float.md): the fixed-width accesses with the NaN canonicalizer on the read path only,
and the n-byte float read. -/

namespace Sys2Proof.Machine

/-- RD.F32: RD.U32, then Canon32 (42_float.md R153). -/
def readF32 (ord : ByteOrder) (s : State) : Host.Outcome State Fault Refusal :=
  commandStep (readAccess 4 ord fun v => (canon32 (BitVec.ofNat 32 v)).setWidth 128) s

/-- RD.F64: RD.U64, then Canon64 (42_float.md R155). -/
def readF64 (ord : ByteOrder) (s : State) : Host.Outcome State Fault Refusal :=
  commandStep (readAccess 8 ord fun v => (canon64 (BitVec.ofNat 64 v)).setWidth 128) s

/-- RD.FLOAT: the NB bytes become the most significant bytes of a binary64, zeros below them, then Canon64
(42_float.md R157). -/
def readFloat (ord : ByteOrder) (s : State) : Host.Outcome State Fault Refusal :=
  nbyteRead 8 ord (fun nb top => (canon64 (BitVec.ofNat 64 top <<< shiftAmount 8 nb)).setWidth 128) s

/-- `RD.F32.BE` (42_float.md R153). -/
def execRdF32Be (s : State) : Host.Outcome State Fault Refusal := readF32 .be s

/-- `RD.F32.LE` (42_float.md R153). -/
def execRdF32Le (s : State) : Host.Outcome State Fault Refusal := readF32 .le s

/-- `WR.F32.BE` (42_float.md R154). -/
def execWrF32Be (s : State) : Host.Outcome State Fault Refusal := fixedWrite 32 .be s

/-- `WR.F32.LE` (42_float.md R154). -/
def execWrF32Le (s : State) : Host.Outcome State Fault Refusal := fixedWrite 32 .le s

/-- `RD.F64.BE` (42_float.md R155). -/
def execRdF64Be (s : State) : Host.Outcome State Fault Refusal := readF64 .be s

/-- `RD.F64.LE` (42_float.md R155). -/
def execRdF64Le (s : State) : Host.Outcome State Fault Refusal := readF64 .le s

/-- `WR.F64.BE` (42_float.md R156). -/
def execWrF64Be (s : State) : Host.Outcome State Fault Refusal := fixedWrite 64 .be s

/-- `WR.F64.LE` (42_float.md R156). -/
def execWrF64Le (s : State) : Host.Outcome State Fault Refusal := fixedWrite 64 .le s

/-- `RD.FLOAT.BE` (42_float.md R157). -/
def execRdFloatBe (s : State) : Host.Outcome State Fault Refusal := readFloat .be s

/-- `RD.FLOAT.LE` (42_float.md R157). -/
def execRdFloatLe (s : State) : Host.Outcome State Fault Refusal := readFloat .le s

end Sys2Proof.Machine
end

