-- ==== Sys2Proof/Machine/Dispatch.lean ====
section
/-! DEFINITION. One arm per command. -/

namespace Sys2Proof.Machine

/-- The meaning of each command: its operands are on the state's ports (30_encoding.md R68). -/
def exec (i : Instr) (s : State) : Host.Outcome State Fault Refusal :=
  match i with
  | .rdU16Be => Sys2Proof.Machine.execRdU16Be s
  | .rdU16Le => Sys2Proof.Machine.execRdU16Le s
  | .wrU16Be => Sys2Proof.Machine.execWrU16Be s
  | .wrU16Le => Sys2Proof.Machine.execWrU16Le s
  | .rdU32Be => Sys2Proof.Machine.execRdU32Be s
  | .rdU32Le => Sys2Proof.Machine.execRdU32Le s
  | .wrU32Be => Sys2Proof.Machine.execWrU32Be s
  | .wrU32Le => Sys2Proof.Machine.execWrU32Le s
  | .rdU64Be => Sys2Proof.Machine.execRdU64Be s
  | .rdU64Le => Sys2Proof.Machine.execRdU64Le s
  | .wrU64Be => Sys2Proof.Machine.execWrU64Be s
  | .wrU64Le => Sys2Proof.Machine.execWrU64Le s
  | .rdU128Be => Sys2Proof.Machine.execRdU128Be s
  | .rdU128Le => Sys2Proof.Machine.execRdU128Le s
  | .wrU128Be => Sys2Proof.Machine.execWrU128Be s
  | .wrU128Le => Sys2Proof.Machine.execWrU128Le s
  | .rdI16Be => Sys2Proof.Machine.execRdI16Be s
  | .rdI16Le => Sys2Proof.Machine.execRdI16Le s
  | .wrI16Be => Sys2Proof.Machine.execWrI16Be s
  | .wrI16Le => Sys2Proof.Machine.execWrI16Le s
  | .rdI32Be => Sys2Proof.Machine.execRdI32Be s
  | .rdI32Le => Sys2Proof.Machine.execRdI32Le s
  | .wrI32Be => Sys2Proof.Machine.execWrI32Be s
  | .wrI32Le => Sys2Proof.Machine.execWrI32Le s
  | .rdI64Be => Sys2Proof.Machine.execRdI64Be s
  | .rdI64Le => Sys2Proof.Machine.execRdI64Le s
  | .wrI64Be => Sys2Proof.Machine.execWrI64Be s
  | .wrI64Le => Sys2Proof.Machine.execWrI64Le s
  | .rdI128Be => Sys2Proof.Machine.execRdI128Be s
  | .rdI128Le => Sys2Proof.Machine.execRdI128Le s
  | .wrI128Be => Sys2Proof.Machine.execWrI128Be s
  | .wrI128Le => Sys2Proof.Machine.execWrI128Le s
  | .rdF32Be => Sys2Proof.Machine.execRdF32Be s
  | .rdF32Le => Sys2Proof.Machine.execRdF32Le s
  | .wrF32Be => Sys2Proof.Machine.execWrF32Be s
  | .wrF32Le => Sys2Proof.Machine.execWrF32Le s
  | .rdF64Be => Sys2Proof.Machine.execRdF64Be s
  | .rdF64Le => Sys2Proof.Machine.execRdF64Le s
  | .wrF64Be => Sys2Proof.Machine.execWrF64Be s
  | .wrF64Le => Sys2Proof.Machine.execWrF64Le s
  | .rdUintBe => Sys2Proof.Machine.execRdUintBe s
  | .rdUintLe => Sys2Proof.Machine.execRdUintLe s
  | .wrUintBe => Sys2Proof.Machine.execWrUintBe s
  | .wrUintLe => Sys2Proof.Machine.execWrUintLe s
  | .rdUint128Be => Sys2Proof.Machine.execRdUint128Be s
  | .rdUint128Le => Sys2Proof.Machine.execRdUint128Le s
  | .wrUint128Be => Sys2Proof.Machine.execWrUint128Be s
  | .wrUint128Le => Sys2Proof.Machine.execWrUint128Le s
  | .rdIntBe => Sys2Proof.Machine.execRdIntBe s
  | .rdIntLe => Sys2Proof.Machine.execRdIntLe s
  | .wrIntBe => Sys2Proof.Machine.execWrIntBe s
  | .wrIntLe => Sys2Proof.Machine.execWrIntLe s
  | .rdInt128Be => Sys2Proof.Machine.execRdInt128Be s
  | .rdInt128Le => Sys2Proof.Machine.execRdInt128Le s
  | .wrInt128Be => Sys2Proof.Machine.execWrInt128Be s
  | .wrInt128Le => Sys2Proof.Machine.execWrInt128Le s
  | .rdFloatBe => Sys2Proof.Machine.execRdFloatBe s
  | .rdFloatLe => Sys2Proof.Machine.execRdFloatLe s

end Sys2Proof.Machine
end

