-- ==== Sys2Proof/Machine/HostMoves.lean ====
section
/-! DEFINITION. What happens at each of the host's moves (70_reset_and_hazards.md R216): how a presented command comes to
be executed, and the host's own reads, writes and resets. -/

namespace Sys2Proof.Machine

/-- The host presents a command. While HALTED = 1 it is not decoded and nothing happens (60_exceptions.md R186; log 4).
An illegal byte faults before any other check (30_encoding.md R67; log 5). A legal one is executed with its operands on
the ports (10_state.md R21). -/
def present (r : Request) (s : State) : Host.Outcome State Fault Refusal :=
  if s.halted then .next s
  else
    match decode r.cmd with
    | .ok i => exec i { s with ports := r }
    | .error _ => .next (State.raise { s with ports := r } .illegalCmd)

/-- The host reads a byte of BUFMEM (70_reset_and_hazards.md R216; log 7). -/
def hostRead (a : Nat) (s : State) : Host.Outcome State Fault Refusal :=
  if a < s.bufsz then .next (s.answer (.byte (s.bufmem.read a))) else .refused .addressOutsideBufmem

/-- The host writes a byte of BUFMEM (70_reset_and_hazards.md R216; log 7). -/
def hostWrite (a : Nat) (b : Byte) (s : State) : Host.Outcome State Fault Refusal :=
  if a < s.bufsz then .next { s with bufmem := s.bufmem.write a b } else .refused .addressOutsideBufmem

/-- One move of the host, with what the block does at it (70_reset_and_hazards.md R216). -/
def perform (h : HostMove) (s : State) : Host.Outcome State Fault Refusal :=
  match h with
  | .command r => present r s
  | .readByte a => hostRead a s
  | .writeByte a b => hostWrite a b s
  | .readStatus => .next (s.answer (.status s.status))
  | .reset => .next s.resetEvent

/-- The next move of the host, if there is one; with none to come nothing happens (10_state.md R31: the block "waits for
the host's first command"; log 15). -/
def nextMove (s : State) : Host.Outcome State Fault Refusal :=
  match s.pending with
  | [] => .next s
  | h :: rest => perform h { s with pending := rest }

/-- The request by which `withFetchWord` presents a command byte: a window of 16 bytes at address 0, VAL = 0, NB = 1
(log 14). -/
def fetchRequest (cmd : Byte) : Request := { cmd := cmd, nb := 1#8, val := 0#128, base := 0, len := 16 }

end Sys2Proof.Machine
end

