-- ==== Sys2Proof/Machine/Step.lean ====
section
/-! DEFINITION. One step of block and host together: the host's next move and what the block does at it (10_state.md R20). -/

namespace Sys2Proof.Machine

/-- One step. -/
def step (s : State) : Host.Outcome State Fault Refusal := nextMove s

/-- The host's next move presents the command byte of a table word (assumption log 14). -/
def State.withFetchWord (s : State) (nbits w : Nat) : State :=
  { s with pending := .command (fetchRequest (BitVec.ofNat 8 (w % 2 ^ nbits))) :: s.pending }

end Sys2Proof.Machine
end

