-- ==== Sys2Proof/Machine/Assembler.lean ====
section
/-! DEFINITION. The assembler: from a line of text to the request it stands for (30_encoding.md R71;
43_ordering_selection.md R172, R173). NATIVE_ORDER is its argument; the block never sees a third ordering. A line is a
list of characters (assumption log 12). -/

namespace Sys2Proof.Machine

/-- The pieces of a list of characters between occurrences of `c`. -/
def splitAtEach (c : Char) : List Char → List (List Char)
  | [] => [[]]
  | x :: xs =>
    match splitAtEach c xs with
    | [] => [[]]
    | p :: ps => if x = c then [] :: p :: ps else (x :: p) :: ps

/-- Without the blanks at either end. -/
def trimBlanks (l : List Char) : List Char :=
  ((l.dropWhile (· == ' ')).reverse.dropWhile (· == ' ')).reverse

/-- The value of a digit in a base. -/
def digitValue (base : Nat) (c : Char) : Option Nat :=
  let n := c.toNat
  let d := if 48 ≤ n ∧ n ≤ 57 then n - 48
    else if 65 ≤ n ∧ n ≤ 70 then n - 55
    else if 97 ≤ n ∧ n ≤ 102 then n - 87
    else base
  if d < base then some d else none

/-- The number a list of digits stands for, `acc` to its left. -/
def numeralFrom (base : Nat) : Nat → List Char → Option Nat
  | acc, [] => some acc
  | acc, c :: cs =>
    match digitValue base c with
    | some d => numeralFrom base (acc * base + d) cs
    | none => none

/-- A decimal or `0x` hexadecimal natural. -/
def natural : List Char → Option Nat
  | '0' :: 'x' :: c :: cs => numeralFrom 16 0 (c :: cs)
  | c :: cs => numeralFrom 10 0 (c :: cs)
  | [] => none

/-- VAL for a type of `n` bits: a `0x` pattern or a decimal integer, negative for I and INT types only, meaning its
two's-complement pattern. -/
def valueText (signed : Bool) (n : Nat) : List Char → Option Value
  | '-' :: c :: cs =>
    match numeralFrom 10 0 (c :: cs) with
    | some m => if signed && decide (m ≤ 2 ^ (n - 1)) then some (BitVec.ofNat 128 ((2 ^ n - m) % 2 ^ n)) else none
    | none => none
  | l =>
    match natural l with
    | some v => if v < 2 ^ 128 then some (BitVec.ofNat 128 v) else none
    | none => none

/-- NB, 0 to 255. -/
def nbText (l : List Char) : Option (BitVec 8) :=
  match natural l with
  | some v => if v < 256 then some (BitVec.ofNat 8 v) else none
  | none => none

/-- `RD` or `WR`. -/
def directionText : List Char → Option Direction
  | ['R', 'D'] => some .rd
  | ['W', 'R'] => some .wr
  | _ => none

/-- TYPE or NTYPE. -/
def typeText : List Char → Option (Kind × WidthSel)
  | ['U', '1', '6'] => some (.u, .w16)
  | ['U', '3', '2'] => some (.u, .w32)
  | ['U', '6', '4'] => some (.u, .w64)
  | ['U', '1', '2', '8'] => some (.u, .w128)
  | ['I', '1', '6'] => some (.i, .w16)
  | ['I', '3', '2'] => some (.i, .w32)
  | ['I', '6', '4'] => some (.i, .w64)
  | ['I', '1', '2', '8'] => some (.i, .w128)
  | ['F', '3', '2'] => some (.f, .w32)
  | ['F', '6', '4'] => some (.f, .w64)
  | ['U', 'I', 'N', 'T'] => some (.uint, .w64)
  | ['U', 'I', 'N', 'T', '1', '2', '8'] => some (.uint, .w128)
  | ['I', 'N', 'T'] => some (.int, .w64)
  | ['I', 'N', 'T', '1', '2', '8'] => some (.int, .w128)
  | ['F', 'L', 'O', 'A', 'T'] => some (.float, .w64)
  | _ => none

/-- An ordering: `BE` and `LE`, and the two pseudo-orderings, `NET` for big-endian and `NE` for NATIVE_ORDER
(43_ordering_selection.md R172, R173). -/
def orderText (native : ByteOrder) : List Char → Option ByteOrder
  | ['B', 'E'] => some .be
  | ['L', 'E'] => some .le
  | ['N', 'E', 'T'] => some .be
  | ['N', 'E'] => some native
  | _ => none

/-- The command a mnemonic `<DIR>.<TYPE>.<ORD>` stands for. -/
def mnemonicText (native : ByteOrder) (l : List Char) : Option Instr :=
  match splitAtEach '.' l with
  | [d, t, o] =>
    match directionText d, typeText t, orderText native o with
    | some d, some (k, w), some o =>
      match instrOfFields k w d o with
      | .ok i => if i.wellFormed Config.ext128 then some i else none
      | .error _ => none
    | _, _, _ => none
  | _ => none

/-- The slice `[BASE, LEN]`, from its two halves. -/
def sliceText (b l : List Char) : Option (Fin 4294967296 × Fin 4294967297) :=
  match b, l.reverse with
  | '[' :: b, ']' :: l =>
    match natural (trimBlanks b), natural (trimBlanks l.reverse) with
    | some b, some l => if h : b < 4294967296 ∧ l < 4294967297 then some (⟨b, h.1⟩, ⟨l, h.2⟩) else none
    | _, _ => none
  | _, _ => none

/-- The operands after the slice, in the form the command has: VAL for a write, then NB for an n-byte command. -/
def operandText (i : Instr) (more : List (List Char)) : Option (Value × BitVec 8) :=
  let signed := match i.fields.1 with
    | .i | .int => true
    | .u | .f | .uint | .float => false
  let n := widthSelBits i.fields.2.1
  match i.isWrite, i.usesNb, more with
  | false, false, [] => some (0#128, 0#8)
  | true, false, [v] => (valueText signed n v).map fun v => (v, 0#8)
  | false, true, [k] => (nbText k).map fun k => (0#128, k)
  | true, true, [v, k] =>
    match valueText signed n v, nbText k with
    | some v, some k => some (v, k)
    | _, _ => none
  | _, _, _ => none

/-- The request a line stands for, if it is a line of one of the four forms (30_encoding.md R71). A port the form does not
give is presented as zero; the command ignores it (10_state.md R21). -/
def assemble (native : ByteOrder) (line : List Char) : Option Request :=
  let line := trimBlanks line
  match mnemonicText native (line.takeWhile (· != ' ')),
      (splitAtEach ',' (line.dropWhile (· != ' '))).map trimBlanks with
  | some i, b :: l :: more =>
    match sliceText b l, operandText i more with
    | some (base, len), some (v, k) => some { cmd := encode i, nb := k, val := v, base := base, len := len }
    | _, _ => none
  | _, _ => none

end Sys2Proof.Machine
end

