-- ==== Sys2Proof/Machine/Instances.lean ====
section
/-! DEFINITION. Two instances that share BUFMEM and are given a command each at the same time (60_exceptions.md R196,
20_memory.md R53 (b) and (c)). Each instance is a State of its own; the two hold the same BUFMEM (assumption log 11). -/

namespace Sys2Proof.Machine

/-- The two states are instances on one BUFMEM. -/
def sharesBufmem (a b : State) : Bool := a.bufmem == b.bufmem && a.bufsz == b.bufsz

/-- Presented to this instance, the command completes with DONE. -/
def completes (r : Request) (s : State) : Bool :=
  match present r s with
  | .next t => !s.halted && !t.halted
  | .fault _ => false
  | .refused _ => false

/-- The bytes a presented command accesses, [BASE, BASE + W), as first address, count, and whether it writes them; none
unless it completes, since a faulting command touches no byte (20_memory.md R46). -/
def accessRange (r : Request) (s : State) : Option (Nat × Nat × Bool) :=
  match decode r.cmd with
  | .ok i => if completes r s then some (r.base.val, i.accessWidth r.nb, i.isWrite) else none
  | .error _ => none

/-- Two accesses overlap and at least one writes (60_exceptions.md R196). -/
def conflicting : Option (Nat × Nat × Bool) → Option (Nat × Nat × Bool) → Bool
  | some (a, n, aw), some (b, m, bw) => (aw || bw) && decide (a < b + m) && decide (b < a + n)
  | _, _ => false

/-- One command after the other on the shared BUFMEM. -/
def presentInTurn (ra rb : Request) (a b : State) : Host.Outcome (State × State) Fault Refusal :=
  match present ra a with
  | .fault r => .fault r
  | .refused r => .refused r
  | .next a' =>
    match present rb { b with bufmem := a'.bufmem } with
    | .fault r => .fault r
    | .refused r => .refused r
    | .next b' => .next ({ a' with bufmem := b'.bufmem }, b')

/-- Two commands at once: refused where the accesses conflict (93_implementation_defined.md U4), and else as one after the
other; in which order makes no difference (60_exceptions.md R196). -/
def presentTogether (ra rb : Request) (a b : State) : Host.Outcome (State × State) Fault Refusal :=
  if conflicting (accessRange ra a) (accessRange rb b) then .refused .overlappingAccesses
  else presentInTurn ra rb a b

end Sys2Proof.Machine
end

