-- ==== Sys2Proof/Safety.lean ====
section
/-! DEFINITION. What counts as a sound state and as the good or bad end of a run (10_state.md R26, R28; 00_scope.md R6;
70_reset_and_hazards.md R217), in the terms the statements use. -/

namespace Sys2Proof.Machine

/-- The invariant of the machine: STATUS has a legal value (10_state.md R26), BUFMEM is in canonical form and lists only
addresses it has (10_state.md R28), and BUFSZ is in its range (00_scope.md R6). -/
def State.wf (s : State) : Bool :=
  statusLegal s.status && s.bufmem.wf && s.bufmem.inside s.bufsz &&
    decide (1 ≤ s.bufsz) && decide (s.bufsz ≤ Config.maxBufSize)

/-- The block executes commands and the request on the ports has a window inside BUFMEM: HALTED = 0 and
BASE + LEN <= BUFSZ (60_exceptions.md R186, 20_memory.md R47). -/
abbrev State.accepting (s : State) : Prop := s.halted = false ∧ s.ports.base.val + s.ports.len.val ≤ s.bufsz

/-- The start of a run: the host's commands in order, on a given BUFMEM, from STATUS = 0 (70_reset_and_hazards.md R217). -/
def launch (bufsz : Nat) (bufmem : Memory) (program : List Request) : State :=
  { State.reset with bufsz := bufsz, bufmem := bufmem, pending := program.map .command }

/-- The good end of a run: every command has been presented and STATUS = 0 (70_reset_and_hazards.md R217). DESIGN CHOICE
(assumption log 16): R217 ties the good end to the DONE of the last command and is silent on an empty list, which has none;
here the run of an empty list has ended well at its start. -/
def State.goodEnd (s : State) : Bool := s.pending.isEmpty && s.status == 0#4

/-- The bad end of a run: a command has answered FAULT (70_reset_and_hazards.md R217, 60_exceptions.md R186). -/
def State.badEnd (s : State) : Bool := s.halted

/-- The RES values the read commands returned, in order (70_reset_and_hazards.md R217). -/
def State.results (s : State) : List Value :=
  s.answers.filterMap fun a =>
    match a with
    | .response (.doneRes v) => some v
    | .response .done => none
    | .response (.fault _) => none
    | .byte _ => none
    | .status _ => none

end Sys2Proof.Machine
end

