-- ==== Sys2Proof/Certificates/Slice0/Obligations.lean ====
section
/-! DEFINITION. The statements about BOMUX, each from the numbered rules of spec/. First the terms they share (namespace
Sys2Proof.Claims), written from the rules and not from the meanings; then one definition per statement. -/

namespace Sys2Proof.Claims

open Sys2Proof.Machine

/-! ### Terms -/

/-- The number the first `w` bytes of the slice stand for, as the sum of 20_memory.md R41. -/
def sliceNumber (s : State) : ByteOrder → Nat → Nat
  | .be, w => ∑ i ∈ Finset.range w, (s.slice i).toNat * 2 ^ (8 * (w - 1 - i))
  | .le, w => ∑ i ∈ Finset.range w, (s.slice i).toNat * 2 ^ (8 * i)

/-- The byte of VAL that a write of `w` bytes puts at slice offset `k`, as bit positions (20_memory.md R42). -/
def portByte (s : State) : ByteOrder → Nat → Nat → Byte
  | .be, w, k => s.ports.val.extractLsb' (8 * (w - 1 - k)) 8
  | .le, _, k => s.ports.val.extractLsb' (8 * k) 8

/-- STATUS after a fault: HALTED = 1 in bit 0, the code in bits 3:1 (10_state.md R26, 60_exceptions.md R181). -/
def faultStatus : Cause → BitVec 4
  | .illegalCmd => 0b0011#4
  | .nbytesRange => 0b0101#4
  | .valueRange => 0b0111#4
  | .shortBuf => 0b1001#4

/-- The state after a command that answered DONE with RES: nothing but the answer is new. -/
def withResult (s : State) (v : Value) : State := { s with answers := s.answers ++ [.response (.doneRes v)] }

/-- The state after fault entry: STATUS and the answer are new, nothing else (60_exceptions.md R184). -/
def faulted (s : State) (c : Cause) : State :=
  { s with status := faultStatus c, answers := s.answers ++ [.response (.fault c)] }

/-- The state after a write command that answered DONE: the `w` bytes from BASE on are `bytes`, every other byte of BUFMEM
reads as before, and besides BUFMEM only the answer is new (20_memory.md R45). -/
def stored (s t : State) (w : Nat) (bytes : Nat → Byte) : Prop :=
  t = { s with bufmem := t.bufmem, answers := s.answers ++ [.response .done] } ∧
  (∀ k, k < w → t.bufmem.read (s.ports.base.val + k) = bytes k) ∧
  (∀ a, a < s.ports.base.val ∨ s.ports.base.val + w ≤ a → t.bufmem.read a = s.bufmem.read a)

/-- A read command of fixed byte width `w`: byte `cmd`, result `res` when LEN >= w, SHORT_BUF when LEN < w. -/
def readsAs (i : Instr) (cmd : Byte) (w : Nat) (res : State → Value) : Prop :=
  decode cmd = .ok i ∧
  ∀ s : State, s.accepting →
    (w ≤ s.ports.len.val → exec i s = .next (withResult s (res s))) ∧
    (s.ports.len.val < w → exec i s = .next (faulted s .shortBuf))

/-- A write command of fixed byte width `w`: byte `cmd`, the bytes of VAL in the given ordering, SHORT_BUF when LEN < w. -/
def writesAs (i : Instr) (cmd : Byte) (w : Nat) (ord : ByteOrder) : Prop :=
  decode cmd = .ok i ∧
  ∀ s : State, s.accepting → s.bufmem.wf = true →
    (w ≤ s.ports.len.val → ∃ t, exec i s = .next t ∧ stored s t w (portByte s ord w)) ∧
    (s.ports.len.val < w → exec i s = .next (faulted s .shortBuf))

/-- An n-byte read for a container of `c` bytes: byte `cmd`, result `res` for a legal NB and LEN >= NB, and the two faults in
their order (41_nbyte_int.md R127). -/
def nbyteReadsAs (i : Instr) (cmd : Byte) (c : Nat) (res : State → Value) : Prop :=
  decode cmd = .ok i ∧
  ∀ s : State, s.accepting →
    (1 ≤ s.ports.nb.toNat → s.ports.nb.toNat ≤ c → s.ports.nb.toNat ≤ s.ports.len.val →
      exec i s = .next (withResult s (res s))) ∧
    (s.ports.nb.toNat < 1 ∨ c < s.ports.nb.toNat → exec i s = .next (faulted s .nbytesRange)) ∧
    (1 ≤ s.ports.nb.toNat → s.ports.nb.toNat ≤ c → s.ports.len.val < s.ports.nb.toNat →
      exec i s = .next (faulted s .shortBuf))

/-- An n-byte write for a container of `c` bytes: byte `cmd`, the low NB bytes of VAL in the given ordering for a legal NB, a
value that fits and LEN >= NB, and the three faults in their order (41_nbyte_int.md R127). -/
def nbyteWritesAs (i : Instr) (cmd : Byte) (c : Nat) (ord : ByteOrder) (fits : State → Prop) : Prop :=
  decode cmd = .ok i ∧
  ∀ s : State, s.accepting → s.bufmem.wf = true →
    (1 ≤ s.ports.nb.toNat → s.ports.nb.toNat ≤ c → fits s → s.ports.nb.toNat ≤ s.ports.len.val →
      ∃ t, exec i s = .next t ∧ stored s t s.ports.nb.toNat (portByte s ord s.ports.nb.toNat)) ∧
    (s.ports.nb.toNat < 1 ∨ c < s.ports.nb.toNat → exec i s = .next (faulted s .nbytesRange)) ∧
    (1 ≤ s.ports.nb.toNat → s.ports.nb.toNat ≤ c → ¬ fits s → exec i s = .next (faulted s .valueRange)) ∧
    (1 ≤ s.ports.nb.toNat → s.ports.nb.toNat ≤ c → fits s → s.ports.len.val < s.ports.nb.toNat →
      exec i s = .next (faulted s .shortBuf))

/-- VAL[8c-1:0] < 2^(8 NB), the unsigned fit in closed form (41_nbyte_int.md R121, R130). -/
def unsignedFits (c : Nat) (r : Request) : Prop := r.val.toNat % 2 ^ (8 * c) < 2 ^ (8 * r.nb.toNat)

/-- The signed value of VAL[8c-1:0] lies in [-2^(8 NB - 1), 2^(8 NB - 1) - 1] (41_nbyte_int.md R125). -/
def signedFits (c : Nat) (r : Request) : Prop :=
  -(2 : Int) ^ (8 * r.nb.toNat - 1) ≤ (r.val.setWidth (8 * c)).toInt ∧
    (r.val.setWidth (8 * c)).toInt ≤ (2 : Int) ^ (8 * r.nb.toNat - 1) - 1

/-- The sign extension of an NB-byte number to 8c bits, written with the shifts of 41_nbyte_int.md R124. -/
def shiftedExtension (c nb n : Nat) : BitVec (8 * c) :=
  (BitVec.ofNat (8 * c) n <<< ((c - nb) * 8)).sshiftRight ((c - nb) * 8)

/-- Canon32 in arithmetic on the pattern: a signaling NaN has exponent 0xFF and a mantissa that is not zero and below 2^22
(42_float.md R150, R151). -/
def quieted32 (b : Nat) : Nat :=
  if b / 2 ^ 23 % 2 ^ 8 = 0xFF ∧ b % 2 ^ 23 ≠ 0 ∧ b % 2 ^ 23 < 2 ^ 22 then b + 2 ^ 22 else b

/-- Canon64 in arithmetic on the pattern (42_float.md R150, R151; the positions of the fields rest on general knowledge,
assumption log 10). -/
def quieted64 (b : Nat) : Nat :=
  if b / 2 ^ 52 % 2 ^ 11 = 0x7FF ∧ b % 2 ^ 52 ≠ 0 ∧ b % 2 ^ 52 < 2 ^ 51 then b + 2 ^ 51 else b

/-- A signaling binary32 NaN, by the bit fields of 42_float.md R151: exponent all ones, mantissa nonzero, quiet bit clear. -/
def signaling32 (b : BitVec 32) : Prop :=
  b.extractLsb' 23 8 = 0xFF#8 ∧ b.extractLsb' 0 23 ≠ 0#23 ∧ b.getLsbD 22 = false

/-- A signaling binary64 NaN, by the bit fields of 42_float.md R151, whose positions rest on general knowledge (R150;
assumption log 10). -/
def signaling64 (b : BitVec 64) : Prop :=
  b.extractLsb' 52 11 = 0x7FF#11 ∧ b.extractLsb' 0 52 ≠ 0#52 ∧ b.getLsbD 51 = false

/-- The container of an n-byte command in bytes (41_nbyte_int.md, "C"). -/
def containerBytes (i : Instr) : Nat := widthSelBits i.fields.2.1 / 8

/-- The first failing check of a request, in the fixed order ILLEGAL_CMD, NBYTES_RANGE, VALUE_RANGE, SHORT_BUF
(60_exceptions.md R181 to R183); none if every check passes. -/
noncomputable def firstFault (r : Request) : Option Cause :=
  open Classical in
  match decode r.cmd with
  | .error _ => some .illegalCmd
  | .ok i =>
    if i.usesNb = true ∧ (r.nb.toNat < 1 ∨ containerBytes i < r.nb.toNat) then some .nbytesRange
    else if i.fields.1 = .uint ∧ i.isWrite = true ∧ ¬ unsignedFits (containerBytes i) r then some .valueRange
    else if i.fields.1 = .int ∧ i.isWrite = true ∧ ¬ signedFits (containerBytes i) r then some .valueRange
    else if r.len.val < i.accessWidth r.nb then some .shortBuf
    else none

/-- What an outcome shows besides the ports: STATUS, BUFMEM and the answers. -/
def effect : Host.Outcome State Fault Refusal → Option (BitVec 4 × Memory × List Answer)
  | .next t => some (t.status, t.bufmem, t.answers)
  | .fault _ => none
  | .refused _ => none

/-- The bytes of a pattern of `w` bytes in the opposite order. -/
def byteReversed (w v : Nat) : Nat := ∑ k ∈ Finset.range w, v / 2 ^ (8 * k) % 2 ^ 8 * 2 ^ (8 * (w - 1 - k))

/-- The fixed-width integer kinds (30_encoding.md R64). -/
def fixedKind (k : Kind) : Prop := k = .u ∨ k = .i

/-- The n-byte integer kinds (30_encoding.md R64). -/
def nbyteKind (k : Kind) : Prop := k = .uint ∨ k = .int

/-- The 58 legal command bytes, in the order of 95_test_vectors.md section 2.4. -/
def legalBytes : List Nat :=
  List.range 0x20 ++ [0x24, 0x25, 0x26, 0x27, 0x28, 0x29, 0x2A, 0x2B, 0x48, 0x49, 0x4A, 0x4B, 0x4C, 0x4D, 0x4E, 0x4F,
    0x58, 0x59, 0x5A, 0x5B, 0x5C, 0x5D, 0x5E, 0x5F, 0x68, 0x69]

end Sys2Proof.Claims

open Sys2Proof Sys2Proof.Machine Sys2Proof.Claims

/-! ### What each command does -/

/-- 40_fixed_int.md R81, R84, R86, R88, R90: RD.U16, RD.U32, RD.U64, RD.U128 in both orderings return the number the first W
bytes stand for, zero-extended, and fault with SHORT_BUF exactly when LEN < W; nothing else changes. -/
def Obligations.FixedUnsignedReadsReturnTheNumber : Prop :=
  readsAs .rdU16Be 0x00 2 (fun s => BitVec.ofNat 128 (sliceNumber s .be 2)) ∧
  readsAs .rdU16Le 0x01 2 (fun s => BitVec.ofNat 128 (sliceNumber s .le 2)) ∧
  readsAs .rdU32Be 0x04 4 (fun s => BitVec.ofNat 128 (sliceNumber s .be 4)) ∧
  readsAs .rdU32Le 0x05 4 (fun s => BitVec.ofNat 128 (sliceNumber s .le 4)) ∧
  readsAs .rdU64Be 0x08 8 (fun s => BitVec.ofNat 128 (sliceNumber s .be 8)) ∧
  readsAs .rdU64Le 0x09 8 (fun s => BitVec.ofNat 128 (sliceNumber s .le 8)) ∧
  readsAs .rdU128Be 0x0C 16 (fun s => BitVec.ofNat 128 (sliceNumber s .be 16)) ∧
  readsAs .rdU128Le 0x0D 16 (fun s => BitVec.ofNat 128 (sliceNumber s .le 16))

/-- 40_fixed_int.md R82, R85, R87, R89, R91: WR.U16, WR.U32, WR.U64, WR.U128 in both orderings store the W low bytes of VAL and
nothing else, with no value check, and fault with SHORT_BUF exactly when LEN < W. -/
def Obligations.FixedUnsignedWritesStoreTheBytes : Prop :=
  writesAs .wrU16Be 0x02 2 .be ∧ writesAs .wrU16Le 0x03 2 .le ∧
  writesAs .wrU32Be 0x06 4 .be ∧ writesAs .wrU32Le 0x07 4 .le ∧
  writesAs .wrU64Be 0x0A 8 .be ∧ writesAs .wrU64Le 0x0B 8 .le ∧
  writesAs .wrU128Be 0x0E 16 .be ∧ writesAs .wrU128Le 0x0F 16 .le

/-- 40_fixed_int.md R92, R94, R96, R98: RD.I16, RD.I32, RD.I64, RD.I128 return the pattern of the unsigned read, zero above
bit N-1. -/
def Obligations.FixedSignedReadsReturnThePattern : Prop :=
  readsAs .rdI16Be 0x10 2 (fun s => BitVec.ofNat 128 (sliceNumber s .be 2)) ∧
  readsAs .rdI16Le 0x11 2 (fun s => BitVec.ofNat 128 (sliceNumber s .le 2)) ∧
  readsAs .rdI32Be 0x14 4 (fun s => BitVec.ofNat 128 (sliceNumber s .be 4)) ∧
  readsAs .rdI32Le 0x15 4 (fun s => BitVec.ofNat 128 (sliceNumber s .le 4)) ∧
  readsAs .rdI64Be 0x18 8 (fun s => BitVec.ofNat 128 (sliceNumber s .be 8)) ∧
  readsAs .rdI64Le 0x19 8 (fun s => BitVec.ofNat 128 (sliceNumber s .le 8)) ∧
  readsAs .rdI128Be 0x1C 16 (fun s => BitVec.ofNat 128 (sliceNumber s .be 16)) ∧
  readsAs .rdI128Le 0x1D 16 (fun s => BitVec.ofNat 128 (sliceNumber s .le 16))

/-- 40_fixed_int.md R93, R95, R97, R99: WR.I16, WR.I32, WR.I64, WR.I128 store the bytes of the unsigned write, with no range
check. -/
def Obligations.FixedSignedWritesStoreTheBytes : Prop :=
  writesAs .wrI16Be 0x12 2 .be ∧ writesAs .wrI16Le 0x13 2 .le ∧
  writesAs .wrI32Be 0x16 4 .be ∧ writesAs .wrI32Le 0x17 4 .le ∧
  writesAs .wrI64Be 0x1A 8 .be ∧ writesAs .wrI64Le 0x1B 8 .le ∧
  writesAs .wrI128Be 0x1E 16 .be ∧ writesAs .wrI128Le 0x1F 16 .le

/-- 42_float.md R153, R155: RD.F32 and RD.F64 return the pattern of the unsigned read with the quiet bit of a signaling NaN
set. The RD.F64 clauses rest on assumption log 10 (PRESUMED: the field positions of a binary64, which R150 marks as general
knowledge). -/
def Obligations.FloatReadsQuietSignalingNaNs : Prop :=
  readsAs .rdF32Be 0x24 4 (fun s => BitVec.ofNat 128 (quieted32 (sliceNumber s .be 4))) ∧
  readsAs .rdF32Le 0x25 4 (fun s => BitVec.ofNat 128 (quieted32 (sliceNumber s .le 4))) ∧
  readsAs .rdF64Be 0x28 8 (fun s => BitVec.ofNat 128 (quieted64 (sliceNumber s .be 8))) ∧
  readsAs .rdF64Le 0x29 8 (fun s => BitVec.ofNat 128 (quieted64 (sliceNumber s .le 8)))

/-- 42_float.md R154, R156: WR.F32 and WR.F64 store the pattern byte-exact, signaling NaNs included. -/
def Obligations.FloatWritesStoreTheBytes : Prop :=
  writesAs .wrF32Be 0x26 4 .be ∧ writesAs .wrF32Le 0x27 4 .le ∧
  writesAs .wrF64Be 0x2A 8 .be ∧ writesAs .wrF64Le 0x2B 8 .le

/-- 42_float.md R157: RD.FLOAT puts the NB bytes at the top of a binary64, zeros below them, and quiets the result.
The quieting rests on assumption log 10 (PRESUMED: the field positions of a binary64). The little-endian placement is what R157
calls "this spec's reading of "little-endian-packed representation of a double's most significant `nbytes` bytes"" (92 D10). -/
def Obligations.NbyteFloatReadsFillTheTopBytes : Prop :=
  nbyteReadsAs .rdFloatBe 0x68 8
    (fun s => BitVec.ofNat 128 (quieted64 (sliceNumber s .be s.ports.nb.toNat * 2 ^ ((8 - s.ports.nb.toNat) * 8)))) ∧
  nbyteReadsAs .rdFloatLe 0x69 8
    (fun s => BitVec.ofNat 128 (quieted64 (sliceNumber s .le s.ports.nb.toNat * 2 ^ ((8 - s.ports.nb.toNat) * 8))))

/-- 41_nbyte_int.md R129: RD.UINT zero-extends the NB-byte number. -/
def Obligations.NbyteUnsignedReadsZeroExtend : Prop :=
  nbyteReadsAs .rdUintBe 0x48 8 (fun s => BitVec.ofNat 128 (sliceNumber s .be s.ports.nb.toNat)) ∧
  nbyteReadsAs .rdUintLe 0x49 8 (fun s => BitVec.ofNat 128 (sliceNumber s .le s.ports.nb.toNat))

/-- 41_nbyte_int.md R130: WR.UINT checks NB, then n < 2^(8 NB), then LEN, and stores the low NB bytes. -/
def Obligations.NbyteUnsignedWritesCheckAndStore : Prop :=
  nbyteWritesAs .wrUintBe 0x4A 8 .be (fun s => unsignedFits 8 s.ports) ∧
  nbyteWritesAs .wrUintLe 0x4B 8 .le (fun s => unsignedFits 8 s.ports)

/-- 41_nbyte_int.md R131: RD.INT sign-extends to 64 bits and is zero above bit 63. -/
def Obligations.NbyteSignedReadsSignExtend : Prop :=
  nbyteReadsAs .rdIntBe 0x58 8
    (fun s => (shiftedExtension 8 s.ports.nb.toNat (sliceNumber s .be s.ports.nb.toNat)).setWidth 128) ∧
  nbyteReadsAs .rdIntLe 0x59 8
    (fun s => (shiftedExtension 8 s.ports.nb.toNat (sliceNumber s .le s.ports.nb.toNat)).setWidth 128)

/-- 41_nbyte_int.md R132: WR.INT checks NB, then the signed range, then LEN, and stores the low NB bytes. -/
def Obligations.NbyteSignedWritesCheckAndStore : Prop :=
  nbyteWritesAs .wrIntBe 0x5A 8 .be (fun s => signedFits 8 s.ports) ∧
  nbyteWritesAs .wrIntLe 0x5B 8 .le (fun s => signedFits 8 s.ports)

/-- 41_nbyte_int.md R133: RD.UINT128, the same on the 128-bit container. -/
def Obligations.Nbyte128UnsignedReadsZeroExtend : Prop :=
  nbyteReadsAs .rdUint128Be 0x4C 16 (fun s => BitVec.ofNat 128 (sliceNumber s .be s.ports.nb.toNat)) ∧
  nbyteReadsAs .rdUint128Le 0x4D 16 (fun s => BitVec.ofNat 128 (sliceNumber s .le s.ports.nb.toNat))

/-- 41_nbyte_int.md R134: WR.UINT128, the same on the 128-bit container. -/
def Obligations.Nbyte128UnsignedWritesCheckAndStore : Prop :=
  nbyteWritesAs .wrUint128Be 0x4E 16 .be (fun s => unsignedFits 16 s.ports) ∧
  nbyteWritesAs .wrUint128Le 0x4F 16 .le (fun s => unsignedFits 16 s.ports)

/-- 41_nbyte_int.md R135: RD.INT128 sign-extends to all 128 bits of RES. -/
def Obligations.Nbyte128SignedReadsSignExtend : Prop :=
  nbyteReadsAs .rdInt128Be 0x5C 16
    (fun s => shiftedExtension 16 s.ports.nb.toNat (sliceNumber s .be s.ports.nb.toNat)) ∧
  nbyteReadsAs .rdInt128Le 0x5D 16
    (fun s => shiftedExtension 16 s.ports.nb.toNat (sliceNumber s .le s.ports.nb.toNat))

/-- 41_nbyte_int.md R136: WR.INT128, the same on the 128-bit container. -/
def Obligations.Nbyte128SignedWritesCheckAndStore : Prop :=
  nbyteWritesAs .wrInt128Be 0x5E 16 .be (fun s => signedFits 16 s.ports) ∧
  nbyteWritesAs .wrInt128Le 0x5F 16 .le (fun s => signedFits 16 s.ports)

/-! ### The operations the commands are built from -/

/-- 20_memory.md R41: Pack is the weighted sum of the bytes, and is below 2^(8W). -/
def Obligations.PackIsTheWeightedSum : Prop :=
  ∀ bl : List Byte,
    pack .be bl = ∑ i ∈ Finset.range bl.length, (bl.getD i 0#8).toNat * 2 ^ (8 * (bl.length - 1 - i)) ∧
    pack .le bl = ∑ i ∈ Finset.range bl.length, (bl.getD i 0#8).toNat * 2 ^ (8 * i) ∧
    ∀ ord, pack ord bl < 2 ^ (8 * bl.length)

/-- 20_memory.md R42: Unpack lists W bytes, and entry i is byte W-1-i of the value (big-endian) or byte i (little-endian). -/
def Obligations.UnpackListsTheLowBytes : Prop :=
  ∀ w v : Nat,
    (∀ ord, (unpack ord w v).length = w) ∧
    ∀ i, i < w →
      ((unpack .be w v).getD i 0#8).toNat = v / 2 ^ (8 * (w - 1 - i)) % 2 ^ 8 ∧
      ((unpack .le w v).getD i 0#8).toNat = v / 2 ^ (8 * i) % 2 ^ 8

/-- 20_memory.md R43: the four laws of the lane maps. -/
def Obligations.LaneMapLaws : Prop :=
  (∀ ord w v, pack ord (unpack ord w v) = v % 2 ^ (8 * w)) ∧
  (∀ ord bl, unpack ord bl.length (pack ord bl) = bl) ∧
  (∀ w v, unpack .le w v = (unpack .be w v).reverse) ∧
  (∀ bl, pack .le bl = pack .be bl.reverse) ∧
  (∀ w v, unpack .be w v = unpack .le w v ↔
    ∀ k, k < w → v / 2 ^ (8 * k) % 2 ^ 8 = v / 2 ^ (8 * (w - 1 - k)) % 2 ^ 8)

/-- 41_nbyte_int.md R121, R122: pack_size and pack_size128 are the least byte counts that hold n. -/
def Obligations.PackSizeIsTheLeastByteCount : Prop :=
  (∀ n k, 1 ≤ k → k ≤ 7 → (packSize n = k ↔ n < 2 ^ (8 * k) ∧ (k = 1 ∨ 2 ^ (8 * (k - 1)) ≤ n))) ∧
  (∀ n, packSize n = 8 ↔ 2 ^ 56 ≤ n) ∧
  (∀ n k, 1 ≤ k → k ≤ 7 → (packSize n ≤ k ↔ n < 2 ^ (8 * k))) ∧
  (∀ n, packSize n ≤ 8) ∧
  (∀ n k, 1 ≤ k → k ≤ 15 → (packSize128 n = k ↔ n < 2 ^ (8 * k) ∧ ∀ j, 1 ≤ j → j < k → ¬ n < 2 ^ (8 * j))) ∧
  (∀ n, packSize128 n = 16 ↔ 2 ^ 120 ≤ n)

/-- 41_nbyte_int.md R124: extend_sign keeps the low 8 NB bits and copies bit 8 NB - 1 above them; for NB = C it changes
nothing. -/
def Obligations.ExtendSignCopiesTheSignBit : Prop :=
  ∀ (c nb : Nat) (raw : BitVec (8 * c)), 1 ≤ nb → nb ≤ c →
    (∀ j, j < 8 * c →
      (extendSign c raw nb).getLsbD j = if j < 8 * nb then raw.getLsbD j else raw.getLsbD (8 * nb - 1)) ∧
    (nb = c → extendSign c raw nb = raw)

/-- 41_nbyte_int.md R125: unextend_sign is the low 8 NB bits; FitsSigned holds exactly when the bits from 8 NB - 1 up are all
equal, which is when the signed value is in the NB-byte range; for NB = C it always holds. -/
def Obligations.SignedFitIsTheSignedRange : Prop :=
  ∀ (c nb : Nat) (v : BitVec (8 * c)), 1 ≤ nb → nb ≤ c →
    (unextendSign c v nb).toNat = v.toNat % 2 ^ (8 * nb) ∧
    (fitsSigned c v nb = true ↔ ∀ j, 8 * nb - 1 ≤ j → j < 8 * c → v.getLsbD j = v.getLsbD (8 * nb - 1)) ∧
    (fitsSigned c v nb = true ↔
      -(2 : Int) ^ (8 * nb - 1) ≤ v.toInt ∧ v.toInt ≤ (2 : Int) ^ (8 * nb - 1) - 1) ∧
    (nb = c → fitsSigned c v nb = true)

/-- 42_float.md R151: the canonicalizer, in arithmetic on the pattern. The binary64 half rests on assumption log 10 (PRESUMED:
the field positions). -/
def Obligations.CanonicalizerSetsTheQuietBit : Prop :=
  (∀ b : BitVec 32, (canon32 b).toNat = quieted32 b.toNat) ∧
  (∀ b : BitVec 64, (canon64 b).toNat = quieted64 b.toNat)

/-- 42_float.md R152 items 1 to 5: at most the quiet bit changes and it is only ever set; patterns that are no NaN and quiet
NaNs are unchanged; the canonicalizer is idempotent and its result is never a signaling NaN, by the bit fields of R151, on
which the model's own predicate agrees. The binary64 half rests on assumption log 10 (PRESUMED: the field positions). -/
def Obligations.CanonicalizerLaws : Prop :=
  (∀ b : BitVec 32,
    (∀ j, j ≠ 22 → (canon32 b).getLsbD j = b.getLsbD j) ∧ (b.getLsbD 22 = true → canon32 b = b) ∧
    (b.extractLsb' 23 8 ≠ 0xFF#8 ∨ b.extractLsb' 0 23 = 0#23 → canon32 b = b) ∧
    canon32 (canon32 b) = canon32 b ∧ isSNaN32 (canon32 b) = false ∧
    (isSNaN32 b = true ↔ signaling32 b) ∧ ¬ signaling32 (canon32 b)) ∧
  (∀ b : BitVec 64,
    (∀ j, j ≠ 51 → (canon64 b).getLsbD j = b.getLsbD j) ∧ (b.getLsbD 51 = true → canon64 b = b) ∧
    (b.extractLsb' 52 11 ≠ 0x7FF#11 ∨ b.extractLsb' 0 52 = 0#52 → canon64 b = b) ∧
    canon64 (canon64 b) = canon64 b ∧ isSNaN64 (canon64 b) = false ∧
    (isSNaN64 b = true ↔ signaling64 b) ∧ ¬ signaling64 (canon64 b))

/-! ### Laws between commands -/

/-- 40_fixed_int.md R83: the signed fixed-width commands behave, bit for bit, as the unsigned ones, in every state. -/
def Obligations.SignedFixedCommandsAreTheUnsignedOnes : Prop :=
  ∀ w d o iu ii, instrOfFields .u w d o = .ok iu → instrOfFields .i w d o = .ok ii → ∀ s, exec ii s = exec iu s

/-- 40_fixed_int.md R100: a fixed-width write followed by a fixed-width read of the same window and width, signed or
unsigned, returns VAL[N-1:0]; with the other ordering it returns the byte-reversed pattern. -/
def Obligations.FixedWidthRoundTrip : Prop :=
  ∀ k k' w o o' wr rd, fixedKind k → fixedKind k' →
    instrOfFields k w .wr o = .ok wr → instrOfFields k' w .rd o' = .ok rd →
    ∀ s : State, s.accepting → s.bufmem.wf = true → widthSelBits w / 8 ≤ s.ports.len.val →
      ∃ t, exec wr s = .next t ∧
        exec rd t = .next (withResult t (BitVec.ofNat 128
          (if o = o' then s.ports.val.toNat % 2 ^ widthSelBits w
           else byteReversed (widthSelBits w / 8) (s.ports.val.toNat % 2 ^ widthSelBits w))))

/-- 41_nbyte_int.md R137: an n-byte write that answers DONE, followed by the matching read of the same window with the same
NB, returns VAL[8C-1:0]. -/
def Obligations.NbyteRoundTrip : Prop :=
  ∀ k w o wr rd, nbyteKind k →
    instrOfFields k w .wr o = .ok wr → instrOfFields k w .rd o = .ok rd →
    ∀ s t : State, s.accepting → s.bufmem.wf = true → exec wr s = .next t → t.halted = false →
      exec rd t = .next (withResult t (BitVec.ofNat 128 (s.ports.val.toNat % 2 ^ widthSelBits w)))

/-- 41_nbyte_int.md R138: with NB = 8 (16) the n-byte commands on the 64-bit (128-bit) container are the fixed-width commands
of that width, in every state, and with NB = 2, 4 RD.UINT is RD.U16, RD.U32; RD.INT with NB = 2, 4 is not RD.I16, RD.I32. -/
def Obligations.NbyteCommandsAtFullWidth : Prop :=
  (∀ s : State, s.ports.nb = 8#8 →
    exec .rdUintBe s = exec .rdU64Be s ∧ exec .rdUintLe s = exec .rdU64Le s ∧
    exec .rdIntBe s = exec .rdI64Be s ∧ exec .rdIntLe s = exec .rdI64Le s ∧
    exec .wrUintBe s = exec .wrU64Be s ∧ exec .wrUintLe s = exec .wrU64Le s ∧
    exec .wrIntBe s = exec .wrI64Be s ∧ exec .wrIntLe s = exec .wrI64Le s) ∧
  (∀ s : State, s.ports.nb = 16#8 →
    exec .rdUint128Be s = exec .rdU128Be s ∧ exec .rdUint128Le s = exec .rdU128Le s ∧
    exec .rdInt128Be s = exec .rdI128Be s ∧ exec .rdInt128Le s = exec .rdI128Le s ∧
    exec .wrUint128Be s = exec .wrU128Be s ∧ exec .wrUint128Le s = exec .wrU128Le s ∧
    exec .wrInt128Be s = exec .wrI128Be s ∧ exec .wrInt128Le s = exec .wrI128Le s) ∧
  (∀ s : State, s.ports.nb = 2#8 → exec .rdUintBe s = exec .rdU16Be s ∧ exec .rdUintLe s = exec .rdU16Le s) ∧
  (∀ s : State, s.ports.nb = 4#8 → exec .rdUintBe s = exec .rdU32Be s ∧ exec .rdUintLe s = exec .rdU32Le s) ∧
  (∃ s : State, s.accepting ∧ s.ports.nb = 2#8 ∧ exec .rdIntBe s ≠ exec .rdI16Be s ∧ exec .rdIntLe s ≠ exec .rdI16Le s) ∧
  (∃ s : State, s.accepting ∧ s.ports.nb = 4#8 ∧ exec .rdIntBe s ≠ exec .rdI32Be s ∧ exec .rdIntLe s ≠ exec .rdI32Le s)

/-- 42_float.md R158: (a) and (b) a float write followed by the float read of the same window returns the pattern, with the
quiet bit set if it was a signaling NaN; (c) the float writes are the unsigned writes and the float reads are the unsigned
reads followed by the canonicalizer, with the same faults; (d) RD.FLOAT of n bytes is RD.F64 of the n bytes and 8 - n zero bytes.
The clauses with quieted64 rest on assumption log 10 (PRESUMED: the field positions of a binary64). -/
def Obligations.FloatCommandsByOtherCommands : Prop :=
  (∀ s : State, exec .wrF32Be s = exec .wrU32Be s ∧ exec .wrF32Le s = exec .wrU32Le s ∧
    exec .wrF64Be s = exec .wrU64Be s ∧ exec .wrF64Le s = exec .wrU64Le s) ∧
  (∀ s : State, s.accepting → s.bufmem.wf = true → 4 ≤ s.ports.len.val →
    (∃ t, exec .wrF32Be s = .next t ∧
      exec .rdF32Be t = .next (withResult t (BitVec.ofNat 128 (quieted32 (s.ports.val.toNat % 2 ^ 32))))) ∧
    (∃ t, exec .wrF32Le s = .next t ∧
      exec .rdF32Le t = .next (withResult t (BitVec.ofNat 128 (quieted32 (s.ports.val.toNat % 2 ^ 32)))))) ∧
  (∀ s : State, s.accepting → s.bufmem.wf = true → 8 ≤ s.ports.len.val →
    (∃ t, exec .wrF64Be s = .next t ∧
      exec .rdF64Be t = .next (withResult t (BitVec.ofNat 128 (quieted64 (s.ports.val.toNat % 2 ^ 64))))) ∧
    (∃ t, exec .wrF64Le s = .next t ∧
      exec .rdF64Le t = .next (withResult t (BitVec.ofNat 128 (quieted64 (s.ports.val.toNat % 2 ^ 64)))))) ∧
  (∀ (s : State) (v : Value),
    (exec .rdU32Be s = .next (withResult s v) → exec .rdF32Be s = .next (withResult s (BitVec.ofNat 128 (quieted32 v.toNat)))) ∧
    (exec .rdU32Le s = .next (withResult s v) → exec .rdF32Le s = .next (withResult s (BitVec.ofNat 128 (quieted32 v.toNat)))) ∧
    (exec .rdU64Be s = .next (withResult s v) → exec .rdF64Be s = .next (withResult s (BitVec.ofNat 128 (quieted64 v.toNat)))) ∧
    (exec .rdU64Le s = .next (withResult s v) → exec .rdF64Le s = .next (withResult s (BitVec.ofNat 128 (quieted64 v.toNat))))) ∧
  (∀ (s : State) (c : Cause),
    (exec .rdU32Be s = .next (faulted s c) → exec .rdF32Be s = .next (faulted s c)) ∧
    (exec .rdU32Le s = .next (faulted s c) → exec .rdF32Le s = .next (faulted s c)) ∧
    (exec .rdU64Be s = .next (faulted s c) → exec .rdF64Be s = .next (faulted s c)) ∧
    (exec .rdU64Le s = .next (faulted s c) → exec .rdF64Le s = .next (faulted s c))) ∧
  (∀ s s' : State, s.accepting → s'.accepting → 1 ≤ s.ports.nb.toNat → s.ports.nb.toNat ≤ 8 →
    s.ports.nb.toNat ≤ s.ports.len.val → 8 ≤ s'.ports.len.val →
    ((∀ k, k < 8 → s'.slice k = if k < s.ports.nb.toNat then s.slice k else 0#8) →
      ∃ v, exec .rdFloatBe s = .next (withResult s v) ∧ exec .rdF64Be s' = .next (withResult s' v)) ∧
    ((∀ k, k < 8 → s'.slice k = if k < 8 - s.ports.nb.toNat then 0#8 else s.slice (k - (8 - s.ports.nb.toNat))) →
      ∃ v, exec .rdFloatLe s = .next (withResult s v) ∧ exec .rdF64Le s' = .next (withResult s' v)))

/-- 43_ordering_selection.md R171: the two orderings of a command differ only in the lane map. The `.BE` command on the slice
with its first W bytes reversed answers as the `.LE` command does, with the same STATUS, and leaves the reversed bytes. -/
def Obligations.OrderingsDifferOnlyInTheLaneMap : Prop :=
  ∀ k w d be le, instrOfFields k w d .be = .ok be → instrOfFields k w d .le = .ok le →
    ∀ s s' t : State, s' = { s with bufmem := s'.bufmem } → s.bufmem.wf = true → s'.bufmem.wf = true →
      (∀ j, j < be.accessWidth s.ports.nb → s'.slice j = s.slice (be.accessWidth s.ports.nb - 1 - j)) →
      exec le s = .next t →
      ∃ t', exec be s' = .next t' ∧ t'.status = t.status ∧ t'.answers = t.answers ∧
        ∀ j, j < be.accessWidth s.ports.nb → t'.slice j = t.slice (be.accessWidth s.ports.nb - 1 - j)

/-! ### What a command depends on, and what it leaves alone -/

/-- 10_state.md R30: for HALTED = 0, the response and the bytes written are a function of the request and of the first W bytes
of the slice, and of nothing else; BUFSZ, the other bytes and earlier answers do not matter. -/
def Obligations.StatelessnessLaw : Prop :=
  ∀ (i : Instr) (s s' : State), s.accepting → s'.accepting → s.bufmem.wf = true → s'.bufmem.wf = true →
    s.ports = s'.ports → (∀ k, k < i.accessWidth s.ports.nb → s.slice k = s'.slice k) →
    ∃ (r : Response) (t t' : State), exec i s = .next t ∧ exec i s' = .next t' ∧
      t.answers = s.answers ++ [.response r] ∧ t'.answers = s'.answers ++ [.response r] ∧
      ∀ k, k < i.accessWidth s.ports.nb → t.slice k = t'.slice k

/-- 10_state.md R21 (section 2): NB is ignored by every command that is not n-byte, VAL by every read, and VAL[127:N] by a
write of an N-bit type. -/
def Obligations.UnusedPortBitsAreIgnored : Prop :=
  ∀ (i : Instr) (s : State) (nb : BitVec 8) (val : Value),
    (i.usesNb = true → nb = s.ports.nb) →
    (i.isWrite = true → val.toNat % 2 ^ widthSelBits i.fields.2.1 = s.ports.val.toNat % 2 ^ widthSelBits i.fields.2.1) →
    effect (exec i { s with ports := { s.ports with nb := nb, val := val } }) = effect (exec i s)

/-- 10_state.md R22, 70_reset_and_hazards.md R215: a command presented to a block that is not halted, with its window in
BUFMEM, ends in exactly one response: DONE with RES for a read, DONE for a write, or FAULT. RES is zero above the N bits of
the result, for signed reads too. -/
def Obligations.EveryCommandAnswersOnce : Prop :=
  ∀ (i : Instr) (s : State), s.accepting →
    ∃ (r : Response) (t : State), exec i s = .next t ∧ t.answers = s.answers ++ [.response r] ∧
      (r = .done → i.isWrite = true) ∧
      (∀ v, r = .doneRes v → i.isWrite = false ∧ v.toNat < 2 ^ widthSelBits i.fields.2.1) ∧
      (∀ c, r = .fault c → t.bufmem = s.bufmem)

/-- 20_memory.md R45 and R46 (section 1): over all steps that present a command, every byte outside [BASE, BASE + W) reads as
before, and a read command, an illegal command and a fault change no byte. -/
def Obligations.CommandsTouchOnlyTheirOwnBytes : Prop :=
  ∀ (s t : State) (r : Request) (rest : List HostMove), s.pending = .command r :: rest → s.bufmem.wf = true →
    step s = .next t →
    (∀ i, decode r.cmd = .ok i →
      (∀ a, a < r.base.val ∨ r.base.val + i.accessWidth r.nb ≤ a → t.bufmem.read a = s.bufmem.read a) ∧
      (i.isWrite = false → t.bufmem = s.bufmem)) ∧
    ((∃ e, decode r.cmd = .error e) → t.bufmem = s.bufmem) ∧
    (t.halted = true → t.bufmem = s.bufmem)

/-- 20_memory.md R47: a legal command whose window does not lie in BUFMEM is refused; it is not a fault. -/
def Obligations.WindowOutsideBufmemIsRefused : Prop :=
  ∀ (i : Instr) (s : State), s.halted = false → s.bufsz < s.ports.base.val + s.ports.len.val →
    exec i s = .refused .windowOutsideBufmem

/-! ### Faults, the halted state, reset -/

/-- 60_exceptions.md R184: whenever a command answers FAULT(c), its whole effect is CAUSE <- code of c, HALTED <- 1 and the
response. -/
def Obligations.FaultEntryIsTheWholeEffect : Prop :=
  ∀ (i : Instr) (s t : State) (c : Cause), exec i s = .next t → t.answers = s.answers ++ [.response (.fault c)] →
    t = faulted s c ∧ t.halted = true ∧ (statusCause t.status).toNat =
      (match c with | .illegalCmd => 1 | .nbytesRange => 2 | .valueRange => 3 | .shortBuf => 4)

/-- 60_exceptions.md R181 to R183: a presented command reports the first failing check in the order ILLEGAL_CMD, NBYTES_RANGE,
VALUE_RANGE, SHORT_BUF, and answers DONE, with STATUS unchanged, when none fails. -/
def Obligations.FirstFailingCheckIsReported : Prop :=
  ∀ (s : State) (r : Request) (rest : List HostMove), s.pending = .command r :: rest → s.halted = false →
    r.base.val + r.len.val ≤ s.bufsz →
    (∀ c, firstFault r = some c → step s = .next (faulted { s with pending := rest, ports := r } c)) ∧
    (firstFault r = none → ∃ t, step s = .next t ∧ t.status = s.status ∧
      (t.answers = s.answers ++ [.response .done] ∨ ∃ v, t.answers = s.answers ++ [.response (.doneRes v)]))

/-- 30_encoding.md R67: a byte outside the table of R66 faults with ILLEGAL_CMD before any other check, whatever NB, VAL, BASE
and LEN are, a window outside BUFMEM included. That the fault comes even before the window refusal is the model's reading
(assumption log 5). -/
def Obligations.IllegalBytesFaultFirst : Prop :=
  ∀ (s : State) (r : Request) (rest : List HostMove), s.pending = .command r :: rest → s.halted = false →
    r.cmd.toNat ∉ legalBytes → step s = .next (faulted { s with pending := rest, ports := r } .illegalCmd)

/-- 60_exceptions.md R186: while HALTED = 1 a presented command, legal or not, gets no response and changes nothing; the block
agent has no enabled step for any command; the host still reads STATUS and reads and writes BUFMEM; and only the reset move
clears HALTED or changes CAUSE. That `step` passes on to the host's next move is the model's rendering (assumption log 4). -/
def Obligations.HaltedBlockExecutesNothing : Prop :=
  ∀ s : State, s.halted = true →
    (∀ i, exec i s = .fault .halted) ∧
    (∀ r rest, s.pending = .command r :: rest → step s = .next { s with pending := rest }) ∧
    (∀ rest, s.pending = .readStatus :: rest →
      step s = .next { s with pending := rest, answers := s.answers ++ [.status s.status] }) ∧
    (∀ a rest, s.pending = .readByte a :: rest → a < s.bufsz →
      step s = .next { s with pending := rest, answers := s.answers ++ [.byte (s.bufmem.read a)] }) ∧
    (∀ a b rest, s.pending = .writeByte a b :: rest → a < s.bufsz →
      step s = .next { s with pending := rest, bufmem := s.bufmem.write a b }) ∧
    (∀ t, step s = .next t → t.status ≠ s.status → ∃ rest, s.pending = .reset :: rest)

/-- 70_reset_and_hazards.md R210: the whole effect of the reset move, in every state, halted or not, is STATUS <- 0; a command
presented next is executed at once. -/
def Obligations.ResetMoveClearsStatusOnly : Prop :=
  ∀ (s : State) (rest : List HostMove), s.pending = .reset :: rest →
    step s = .next { s with pending := rest, status := 0#4 } ∧
    ∀ (r : Request) (rest' : List HostMove) (i : Instr), rest = .command r :: rest' → decode r.cmd = .ok i →
      step { s with pending := rest, status := 0#4 } = exec i { s with pending := rest', status := 0#4, ports := r }

/-- 70_reset_and_hazards.md R211, 10_state.md R31: after power-up HALTED = 0 and CAUSE = 0. (BUFMEM all zero, BUFSZ = 2^32 and
the empty host fields at State.reset are the model's choices, logs 1, 2, 3, 6, and not stated here.) -/
def Obligations.PowerUpStatusIsClear : Prop :=
  State.reset.halted = false ∧ statusCause State.reset.status = 0#3 ∧ State.reset.status = 0#4

/-- 10_state.md R26: STATUS has one of its legal values after any step from a state in which it has; a step changes it only by
the reset move, to 0, or by a command that answers FAULT(c) in a running block, to HALTED = 1 with the code of c; and the
host's reading it returns it. -/
def Obligations.StatusIsWrittenByFaultAndResetOnly : Prop :=
  ∀ s t : State, step s = .next t →
    (s.status ∈ [0b0000#4, 0b0011#4, 0b0101#4, 0b0111#4, 0b1001#4] →
      t.status ∈ [0b0000#4, 0b0011#4, 0b0101#4, 0b0111#4, 0b1001#4]) ∧
    (t.status ≠ s.status →
      (∃ rest, s.pending = .reset :: rest ∧ t.status = 0#4) ∨
      (∃ r rest c, s.pending = .command r :: rest ∧ s.halted = false ∧ t.status = faultStatus c ∧
        t.answers = s.answers ++ [.response (.fault c)])) ∧
    (∀ rest, s.pending = .readStatus :: rest → t = { s with pending := rest, answers := s.answers ++ [.status s.status] })

/-! ### Encoding -/

/-- 30_encoding.md R60, R66, R70: for either value of EXT128, a command the implementation has decodes from its own byte, and a
byte that decodes is the byte of the command it decodes to, which the implementation has. -/
def Obligations.DecodeAndEncodeAgree : Prop :=
  (∀ (ext128 : Bool) (i : Instr), i.wellFormed ext128 = true → decodeWith ext128 (encode i) = .ok i) ∧
  (∀ (ext128 : Bool) (cmd : Byte) (i : Instr), decodeWith ext128 cmd = .ok i →
    encode i = cmd ∧ i.wellFormed ext128 = true)

/-- 30_encoding.md R66, R67: exactly the 58 bytes of the table are legal. -/
def Obligations.ExactlyTheTableBytesAreLegal : Prop :=
  ∀ cmd : Byte, (∃ i, decode cmd = .ok i) ↔ cmd.toNat ∈ legalBytes

/-- 30_encoding.md R67, 00_scope.md R6: with EXT128 = 0 the sixteen bytes with WSEL = 3 are illegal as well, and every other byte
decodes as with EXT128 = 1. -/
def Obligations.WithoutExt128SixteenMoreBytesAreIllegal : Prop :=
  ∀ cmd : Byte,
    (cmd.toNat ∈ [0x0C, 0x0D, 0x0E, 0x0F, 0x1C, 0x1D, 0x1E, 0x1F, 0x4C, 0x4D, 0x4E, 0x4F, 0x5C, 0x5D, 0x5E, 0x5F] →
      decodeWith false cmd = .error .ext128Absent) ∧
    (cmd.toNat ∉ [0x0C, 0x0D, 0x0E, 0x0F, 0x1C, 0x1D, 0x1E, 0x1F, 0x4C, 0x4D, 0x4E, 0x4F, 0x5C, 0x5D, 0x5E, 0x5F] →
      decodeWith false cmd = decodeWith true cmd)

/-- 30_encoding.md R66: a few words of the table, one or more per family, written out bit by bit. -/
def Obligations.TableWordsDecode : Prop :=
  decodeTableWord 8 0b00000000 = some .rdU16Be ∧ decodeTableWord 8 0b00001111 = some .wrU128Le ∧
  decodeTableWord 8 0b00010110 = some .wrI32Be ∧ decodeTableWord 8 0b00100101 = some .rdF32Le ∧
  decodeTableWord 8 0b01001010 = some .wrUintBe ∧ decodeTableWord 8 0b01011101 = some .rdInt128Le ∧
  decodeTableWord 8 0b01101000 = some .rdFloatBe ∧ decodeTableWord 8 0b01101010 = none

/-- 43_ordering_selection.md R172, R173; 30_encoding.md R71: for every beginning of a mnemonic, `.NET` stands for what `.BE`
stands for, and `.NE` for what the ordering NATIVE_ORDER stands for; and NATIVE_ORDER changes no other mnemonic's command. -/
def Obligations.PseudoOrderingsAreAliases : Prop :=
  ∀ (native : ByteOrder) (op : List Char),
    mnemonicText native (op ++ ['.', 'N', 'E', 'T']) = mnemonicText native (op ++ ['.', 'B', 'E']) ∧
    mnemonicText .be (op ++ ['.', 'N', 'E']) = mnemonicText native (op ++ ['.', 'B', 'E']) ∧
    mnemonicText .le (op ++ ['.', 'N', 'E']) = mnemonicText native (op ++ ['.', 'L', 'E'])

/-! ### Steps and runs -/

/-- A step runs the decoded instruction: when the host's next move presents a command whose byte decodes to i and the block is
not halted, step is exec of i, with the move taken off the host's list and the request on the ports; with no move to come,
step changes nothing (the model's choice, assumption log 15). -/
def Obligations.StepRunsTheDecodedCommand : Prop :=
  (∀ (s : State) (r : Request) (rest : List HostMove) (i : Instr), s.pending = .command r :: rest → s.halted = false →
    decode r.cmd = .ok i → step s = exec i { s with pending := rest, ports := r }) ∧
  (∀ s : State, s.pending = [] → step s = .next s)

/-- The fixed name withFetchWord (assumption log 14): the very next step runs exactly the table word's command. -/
def Obligations.FetchWordRunsNext : Prop :=
  ∀ (s : State) (nbits w : Nat) (i : Instr), s.halted = false → decodeTableWord nbits w = some i →
    step (s.withFetchWord nbits w) = exec i { s with ports := fetchRequest (BitVec.ofNat 8 (w % 2 ^ nbits)) }

/-- The invariant of the machine: STATUS legal (10_state.md R26), BUFMEM canonical and inside 0..BUFSZ-1 (R28), BUFSZ in its
range (00_scope.md R6). Every step from a state that meets it leads to a state that meets it. -/
def Obligations.StepKeepsTheInvariant : Prop :=
  ∀ s t : State, s.wf = true → step s = .next t → t.wf = true

/-- The state after reset meets the invariant. -/
def Obligations.ResetMeetsTheInvariant : Prop := State.reset.wf = true

/-- 00_scope.md section 4 and 70_reset_and_hazards.md section 5: no step changes BUFSZ, each step takes exactly the next move of
the host, and what the host has been given is never taken back. -/
def Obligations.StepTakesOneHostMove : Prop :=
  ∀ s t : State, step s = .next t →
    t.bufsz = s.bufsz ∧ t.pending = s.pending.tail ∧ ∃ more, more.length ≤ 1 ∧ t.answers = s.answers ++ more

/-- 70_reset_and_hazards.md section 5 (R216): the host reads and writes any byte BUFMEM has, with no other effect; at an address it
does not have the move is refused (assumption log 7); reading back what was written gives it. -/
def Obligations.HostReadsAndWritesBufmem : Prop :=
  ∀ (s : State) (a : Nat) (rest : List HostMove), s.bufmem.wf = true →
    (s.pending = .readByte a :: rest →
      (a < s.bufsz → step s = .next { s with pending := rest, answers := s.answers ++ [.byte (s.bufmem.read a)] }) ∧
      (s.bufsz ≤ a → step s = .refused .addressOutsideBufmem)) ∧
    (∀ b, s.pending = .writeByte a b :: rest →
      (a < s.bufsz → ∃ t, step s = .next t ∧ t = { s with pending := rest, bufmem := t.bufmem } ∧
        t.bufmem.read a = b ∧ ∀ a', a' ≠ a → t.bufmem.read a' = s.bufmem.read a') ∧
      (s.bufsz ≤ a → step s = .refused .addressOutsideBufmem))

/-- 60_exceptions.md section 5 (R196): two commands given at once to two instances on one BUFMEM. Where their accessed bytes
overlap and one writes, the launch is refused; else the outcome is that of one after the other, and it does not matter
which comes first. -/
def Obligations.IndependentInstancesCommute : Prop :=
  ∀ (ra rb : Request) (a b : State), a.bufmem = b.bufmem → a.bufsz = b.bufsz → a.bufmem.wf = true →
    (conflicting (accessRange ra a) (accessRange rb b) = true →
      presentTogether ra rb a b = .refused .overlappingAccesses) ∧
    (conflicting (accessRange ra a) (accessRange rb b) = false →
      presentTogether ra rb a b = presentInTurn ra rb a b ∧
      ∀ a' b', presentInTurn ra rb a b = .next (a', b') ↔ presentInTurn rb ra b a = .next (b', a'))
end

