-- ==== Sys2Proof/Laws/State.lean ====
section
/-! SUPPORT. One lemma per field per update of State, so that no later proof unfolds a record update. -/

namespace Sys2Proof.Machine

section fields

variable (s : State) (a : Answer) (v : Value) (c : Cause) (off : Nat) (bl : List Byte)

@[simp] theorem answer_status : (s.answer a).status = s.status := rfl
@[simp] theorem answer_bufmem : (s.answer a).bufmem = s.bufmem := rfl
@[simp] theorem answer_bufsz : (s.answer a).bufsz = s.bufsz := rfl
@[simp] theorem answer_ports : (s.answer a).ports = s.ports := rfl
@[simp] theorem answer_pending : (s.answer a).pending = s.pending := rfl
@[simp] theorem answer_answers : (s.answer a).answers = s.answers ++ [a] := rfl

@[simp] theorem done_status : s.done.status = s.status := rfl
@[simp] theorem done_bufmem : s.done.bufmem = s.bufmem := rfl
@[simp] theorem done_bufsz : s.done.bufsz = s.bufsz := rfl
@[simp] theorem done_ports : s.done.ports = s.ports := rfl
@[simp] theorem done_pending : s.done.pending = s.pending := rfl
@[simp] theorem done_answers : s.done.answers = s.answers ++ [.response .done] := rfl

@[simp] theorem doneRes_status : (s.doneRes v).status = s.status := rfl
@[simp] theorem doneRes_bufmem : (s.doneRes v).bufmem = s.bufmem := rfl
@[simp] theorem doneRes_bufsz : (s.doneRes v).bufsz = s.bufsz := rfl
@[simp] theorem doneRes_ports : (s.doneRes v).ports = s.ports := rfl
@[simp] theorem doneRes_pending : (s.doneRes v).pending = s.pending := rfl
@[simp] theorem doneRes_answers : (s.doneRes v).answers = s.answers ++ [.response (.doneRes v)] := rfl

@[simp] theorem raise_status : (s.raise c).status = statusOfFault c := rfl
@[simp] theorem raise_bufmem : (s.raise c).bufmem = s.bufmem := rfl
@[simp] theorem raise_bufsz : (s.raise c).bufsz = s.bufsz := rfl
@[simp] theorem raise_ports : (s.raise c).ports = s.ports := rfl
@[simp] theorem raise_pending : (s.raise c).pending = s.pending := rfl
@[simp] theorem raise_answers : (s.raise c).answers = s.answers ++ [.response (.fault c)] := rfl

@[simp] theorem memWrite_status : (s.memWrite off bl).status = s.status := rfl
@[simp] theorem memWrite_bufmem :
    (s.memWrite off bl).bufmem = s.bufmem.writeBytes (s.ports.base.val + off) bl := rfl
@[simp] theorem memWrite_bufsz : (s.memWrite off bl).bufsz = s.bufsz := rfl
@[simp] theorem memWrite_ports : (s.memWrite off bl).ports = s.ports := rfl
@[simp] theorem memWrite_pending : (s.memWrite off bl).pending = s.pending := rfl
@[simp] theorem memWrite_answers : (s.memWrite off bl).answers = s.answers := rfl

@[simp] theorem resetEvent_status : s.resetEvent.status = 0#4 := rfl
@[simp] theorem resetEvent_bufmem : s.resetEvent.bufmem = s.bufmem := rfl
@[simp] theorem resetEvent_bufsz : s.resetEvent.bufsz = s.bufsz := rfl
@[simp] theorem resetEvent_ports : s.resetEvent.ports = s.ports := rfl
@[simp] theorem resetEvent_pending : s.resetEvent.pending = s.pending := rfl
@[simp] theorem resetEvent_answers : s.resetEvent.answers = s.answers := rfl

/-- HALTED reads STATUS and nothing else. -/
theorem halted_eq : s.halted = statusHalted s.status := rfl

/-- Fault entry always halts. -/
@[simp] theorem raise_halted : (s.raise c).halted = true := by
  show statusHalted (statusOfFault c) = true
  cases c <;> decide

/-- The window duty of a request, as a comparison. -/
@[simp] theorem request_wellFormed_iff (r : Request) (n : Nat) :
    r.wellFormed n = true ↔ r.base.val + r.len.val ≤ n := by simp [Request.wellFormed]

end fields

end Sys2Proof.Machine
end

