-- ==== Sys2Proof/Laws/Memory.lean ====
section
/-! SUPPORT. The laws of BUFMEM: reading what was written, leaving every other byte alone, keeping the canonical form, and
that two memories in canonical form that read alike are equal. -/

namespace Sys2Proof.Machine

@[simp] theorem read_nil (a : Nat) : Memory.read [] a = unlistedByte := rfl

/-- A byte below every listed address is unlisted. -/
theorem read_of_lt {m : Memory} : ∀ {lo a : Nat}, m.wfFrom lo = true → a < lo → m.read a = unlistedByte := by
  induction m with
  | nil => intros; rfl
  | cons c m ih =>
    obtain ⟨k, v⟩ := c
    intro lo a h ha
    simp only [Memory.wfFrom, Bool.and_eq_true, decide_eq_true_eq] at h
    have : a ≠ k := by omega
    simp only [Memory.read, if_neg this]
    exact ih h.2 (by omega)

/-- The canonical form only weakens downwards. -/
theorem wfFrom_mono {m : Memory} {lo lo' : Nat} (h : m.wfFrom lo = true) (hl : lo' ≤ lo) : m.wfFrom lo' = true := by
  cases m with
  | nil => rfl
  | cons c m =>
    obtain ⟨k, v⟩ := c
    simp only [Memory.wfFrom, Bool.and_eq_true, decide_eq_true_eq] at h ⊢
    exact ⟨⟨by omega, h.1.2⟩, h.2⟩

/-- Writing keeps the canonical form. -/
theorem write_wfFrom {m : Memory} : ∀ {lo a : Nat} (b : Byte), m.wfFrom lo = true → lo ≤ a →
    (m.write a b).wfFrom lo = true := by
  induction m with
  | nil =>
    intro lo a b _ ha
    by_cases hb : b = unlistedByte
    · simp [Memory.write, hb, Memory.wfFrom]
    · simp [Memory.write, hb, Memory.wfFrom, ha]
  | cons c m ih =>
    obtain ⟨k, v⟩ := c
    intro lo a b h ha
    have h' := h
    simp only [Memory.wfFrom, Bool.and_eq_true, decide_eq_true_eq] at h
    unfold Memory.write
    split
    · split
      · exact h'
      · next hb =>
        simp only [Memory.wfFrom, Bool.and_eq_true, decide_eq_true_eq, bne_iff_ne, ne_eq, hb, not_false_eq_true,
          and_true]
        exact ⟨ha, ⟨by omega, by simpa using h.1.2⟩, h.2⟩
    · split
      · next hk =>
        split
        · exact wfFrom_mono h.2 (by omega)
        · next hb =>
          simp only [Memory.wfFrom, Bool.and_eq_true, decide_eq_true_eq, bne_iff_ne, ne_eq, hb, not_false_eq_true,
            and_true]
          exact ⟨ha, hk ▸ h.2⟩
      · simp only [Memory.wfFrom, Bool.and_eq_true, decide_eq_true_eq]
        exact ⟨h.1, ih b h.2 (by omega)⟩

/-- Writing keeps the canonical form. -/
theorem write_wf {m : Memory} (a : Nat) (b : Byte) (h : m.wf = true) : (m.write a b).wf = true :=
  write_wfFrom b h (Nat.zero_le a)

/-- What a byte reads as after a write, at the address written and at every other. -/
theorem read_write {m : Memory} : ∀ {lo : Nat} (a x : Nat) (b : Byte), m.wfFrom lo = true →
    (m.write a b).read x = if x = a then b else m.read x := by
  induction m with
  | nil =>
    intro lo a x b _
    by_cases hb : b = unlistedByte <;> by_cases hx : x = a <;>
      simp [Memory.write, Memory.read, hb, hx]
  | cons c m ih =>
    obtain ⟨k, v⟩ := c
    intro lo a x b h
    simp only [Memory.wfFrom, Bool.and_eq_true, decide_eq_true_eq] at h
    unfold Memory.write
    split
    · next hk =>
      split
      · next hb =>
        split
        · next hx =>
          subst hx
          have : x ≠ k := by omega
          simp only [Memory.read, if_neg this, hb]
          exact read_of_lt h.2 (by omega)
        · rfl
      · simp [Memory.read]
    · split
      · next hk =>
        subst hk
        split
        · next hb =>
          split
          · next hx => subst hx; rw [hb]; exact read_of_lt h.2 (by omega)
          · next hx => simp [Memory.read, hx]
        · by_cases hx : x = a <;> simp [Memory.read, hx]
      · next hk hk' =>
        by_cases hx : x = k
        · have hne : k ≠ a := by omega
          subst hx
          simp [Memory.read, hne]
        · simp only [Memory.read, if_neg hx]
          exact ih a x b h.2

@[simp] theorem read_write_self {m : Memory} (a : Nat) (b : Byte) (h : m.wf = true) : (m.write a b).read a = b := by
  simp [read_write a a b h]

theorem read_write_other {m : Memory} {a x : Nat} (b : Byte) (h : m.wf = true) (hx : x ≠ a) :
    (m.write a b).read x = m.read x := by
  simp [read_write a x b h, hx]

/-- A write inside BUFMEM lists no address outside it. -/
theorem write_inside {m : Memory} {n a : Nat} (b : Byte) (h : m.inside n = true) (ha : a < n) :
    (m.write a b).inside n = true := by
  induction m with
  | nil => by_cases hb : b = unlistedByte <;> simp [Memory.write, Memory.inside, hb, ha]
  | cons c m ih =>
    obtain ⟨k, v⟩ := c
    simp only [Memory.inside, List.all_cons, Bool.and_eq_true, decide_eq_true_eq] at h ih ⊢
    unfold Memory.write
    split
    · split <;> simp only [List.all_cons, Bool.and_eq_true, decide_eq_true_eq]
      · exact h
      · exact ⟨ha, h⟩
    · split
      · split
        · exact h.2
        · simp only [List.all_cons, Bool.and_eq_true, decide_eq_true_eq]
          exact ⟨ha, h.2⟩
      · simp only [List.all_cons, Bool.and_eq_true, decide_eq_true_eq]
        exact ⟨h.1, ih h.2⟩

/-- Writing a list of bytes keeps the canonical form. -/
theorem writeBytes_wf (bl : List Byte) : ∀ {m : Memory} (a : Nat), m.wf = true → (m.writeBytes a bl).wf = true := by
  induction bl with
  | nil => intro m a h; exact h
  | cons b bl ih => intro m a h; exact ih (a + 1) (write_wf a b h)

/-- Writing a list of bytes inside BUFMEM lists no address outside it. -/
theorem writeBytes_inside (bl : List Byte) : ∀ {m : Memory} {n : Nat} (a : Nat), m.inside n = true →
    a + bl.length ≤ n → (m.writeBytes a bl).inside n = true := by
  induction bl with
  | nil => intro m n a h _; exact h
  | cons b bl ih =>
    intro m n a h ha
    simp only [List.length_cons] at ha
    exact ih (a + 1) (write_inside b h (by omega)) (by omega)

/-- What a byte reads as after a list of bytes was written. -/
theorem read_writeBytes (bl : List Byte) : ∀ {m : Memory} (a x : Nat), m.wf = true →
    (m.writeBytes a bl).read x = if a ≤ x ∧ x < a + bl.length then bl.getD (x - a) 0#8 else m.read x := by
  induction bl with
  | nil => intro m a x _; simp [Memory.writeBytes]
  | cons b bl ih =>
    intro m a x h
    simp only [Memory.writeBytes, ih (a + 1) x (write_wf a b h), List.length_cons]
    by_cases hx : x = a
    · subst hx
      simp [read_write_self x b h]
    · rw [read_write_other b h hx]
      by_cases hin : a + 1 ≤ x ∧ x < a + 1 + bl.length
      · have h2 : a ≤ x ∧ x < a + (bl.length + 1) := by omega
        have h3 : x - a = (x - (a + 1)) + 1 := by omega
        rw [if_pos hin, if_pos h2, h3, List.getD_cons_succ]
      · have h2 : ¬ (a ≤ x ∧ x < a + (bl.length + 1)) := by omega
        rw [if_neg hin, if_neg h2]

@[simp] theorem readBytes_length (n : Nat) : ∀ (m : Memory) (a : Nat), (m.readBytes a n).length = n := by
  induction n with
  | zero => intros; rfl
  | succ n ih => intro m a; simp [Memory.readBytes, ih]

/-- The `k`-th of the bytes read. -/
theorem readBytes_getD (n : Nat) : ∀ (m : Memory) (a k : Nat), k < n → (m.readBytes a n).getD k 0#8 = m.read (a + k) := by
  induction n with
  | zero => intro m a k h; omega
  | succ n ih =>
    intro m a k h
    cases k with
    | zero => simp [Memory.readBytes]
    | succ k =>
      have : a + (k + 1) = a + 1 + k := by omega
      rw [this, Memory.readBytes, List.getD_cons_succ, ih m (a + 1) k (by omega)]

/-- Two reads of as many bytes agree when the bytes do. -/
theorem readBytes_congr (n : Nat) : ∀ {m m' : Memory} {a a' : Nat},
    (∀ k, k < n → m.read (a + k) = m'.read (a' + k)) → m.readBytes a n = m'.readBytes a' n := by
  induction n with
  | zero => intros; rfl
  | succ n ih =>
    intro m m' a a' h
    simp only [Memory.readBytes]
    have h0 := h 0 (by omega)
    simp only [Nat.add_zero] at h0
    rw [h0, ih (m := m) (m' := m') (a := a + 1) (a' := a' + 1)]
    intro k hk
    have h1 := h (k + 1) (by omega)
    rwa [show a + (k + 1) = a + 1 + k by omega, show a' + (k + 1) = a' + 1 + k by omega] at h1

/-- What was written is read back. -/
theorem readBytes_writeBytes {m : Memory} (a : Nat) (bl : List Byte) (h : m.wf = true) :
    (m.writeBytes a bl).readBytes a bl.length = bl := by
  apply List.ext_getElem (by simp)
  intro k hk _
  simp only [readBytes_length] at hk
  have := readBytes_getD bl.length (m.writeBytes a bl) a k hk
  rw [read_writeBytes bl a (a + k) h, if_pos (by omega), Nat.add_sub_cancel_left] at this
  simpa [List.getD_eq_getElem?_getD, hk] using this

/-- Two memories in canonical form that read alike everywhere are the same list. -/
theorem memory_ext {m : Memory} : ∀ {m' : Memory} {lo : Nat}, m.wfFrom lo = true → m'.wfFrom lo = true →
    (∀ a, m.read a = m'.read a) → m = m' := by
  induction m with
  | nil =>
    intro m' lo _ h' he
    cases m' with
    | nil => rfl
    | cons c m' =>
      obtain ⟨k, v⟩ := c
      have := he k
      simp only [Memory.wfFrom, Bool.and_eq_true, bne_iff_ne, ne_eq] at h'
      simp only [Memory.read, if_true] at this
      exact absurd this.symm h'.1.2
  | cons c m ih =>
    obtain ⟨k, v⟩ := c
    intro m' lo h h' he
    have hk := he k
    cases m' with
    | nil =>
      simp only [Memory.wfFrom, Bool.and_eq_true, bne_iff_ne, ne_eq] at h
      simp only [Memory.read, if_true] at hk
      exact absurd hk h.1.2
    | cons c' m' =>
      obtain ⟨k', v'⟩ := c'
      have hk' := he k'
      simp only [Memory.wfFrom, Bool.and_eq_true, decide_eq_true_eq, bne_iff_ne, ne_eq] at h h'
      have hkk : k = k' := by
        rcases Nat.lt_trichotomy k k' with hlt | heq | hgt
        · have : k ≠ k' := by omega
          simp only [Memory.read, if_true, if_neg this] at hk
          exact absurd (hk.trans (read_of_lt h'.2 (by omega))) h.1.2
        · exact heq
        · have : k' ≠ k := by omega
          simp only [Memory.read, if_true, if_neg this] at hk'
          exact absurd (hk'.symm.trans (read_of_lt h.2 (by omega))) h'.1.2
      subst hkk
      simp only [Memory.read, if_true] at hk
      subst hk
      have : m = m' := by
        refine ih h.2 h'.2 fun a => ?_
        by_cases ha : a = k
        · subst ha
          rw [read_of_lt h.2 (by omega), read_of_lt h'.2 (by omega)]
        · have := he a
          simpa [Memory.read, ha] using this
      rw [this]

/-- The memory at reset is in canonical form. -/
theorem reset_memory_wf : State.reset.bufmem.wf = true := rfl

end Sys2Proof.Machine
end

