-- ==== Sys2Proof/Laws/Lanes.lean ====
section
/-! SUPPORT. The small lemmas of the lane maps and of the operands: what Pack and Unpack give, once. -/

namespace Sys2Proof.Machine

/-- Pack(LE, bl) is below 2^(8W) (20_memory.md R41). -/
theorem packLe_lt (bl : List Byte) : packLe bl < 2 ^ (8 * bl.length) := by
  induction bl with
  | nil => simp [packLe]
  | cons b bl ih =>
    have hb := b.isLt
    simp only [packLe, List.length_cons, Nat.mul_add, Nat.mul_one, Nat.pow_add]
    omega

/-- Pack(BE, bl) is below 2^(8W) (20_memory.md R41). -/
theorem packBe_lt (bl : List Byte) : packBe bl < 2 ^ (8 * bl.length) := by
  induction bl with
  | nil => simp [packBe]
  | cons b bl ih =>
    have hb := b.isLt
    simp only [packBe, List.length_cons, Nat.mul_add, Nat.mul_one, Nat.pow_add]
    have : b.toNat * 2 ^ (8 * bl.length) ≤ 255 * 2 ^ (8 * bl.length) := Nat.mul_le_mul_right _ (by omega)
    omega

/-- Pack is below 2^(8W) (20_memory.md R41). -/
theorem pack_lt (ord : ByteOrder) (bl : List Byte) : pack ord bl < 2 ^ (8 * bl.length) := by
  cases ord
  · exact packBe_lt bl
  · exact packLe_lt bl

@[simp] theorem unpack_length (ord : ByteOrder) (w v : Nat) : (unpack ord w v).length = w := by simp [unpack]

/-- Entry `i` of Unpack is the value's byte on lane `i` (43_ordering_selection.md R174). -/
theorem unpack_getD (ord : ByteOrder) {w i : Nat} (v : Nat) (h : i < w) :
    (unpack ord w v).getD i 0#8 = valueByte v (lane ord w i) := by
  simp [unpack, List.getD_eq_getElem?_getD, h]

/-- A byte of a value, as a number. -/
@[simp] theorem valueByte_toNat (v k : Nat) : (valueByte v k).toNat = v / 2 ^ (8 * k) % 2 ^ 8 := by simp [valueByte]

/-- The nbytes check, as comparisons. -/
@[simp] theorem nbytesLegal_iff (c nb : Nat) : nbytesLegal c nb = true ↔ 1 ≤ nb ∧ nb ≤ c := by simp [nbytesLegal]

/-- A shift amount of a legal NB stays below the container's width (41_nbyte_int.md R123). -/
theorem shiftAmount_lt {c nb : Nat} (h : nbytesLegal c nb = true) : shiftAmount c nb < 8 * c := by
  simp only [nbytesLegal_iff] at h
  simp only [shiftAmount]
  omega

end Sys2Proof.Machine
end

