-- ==== Sys2Proof/Laws/Access.lean ====
section
/-! SUPPORT. What each shared operation of a command can do, said once: the gate, the two accesses, the n-byte checks, and
then every command. The proofs over commands cite these instead of unfolding the operations. -/

namespace Sys2Proof.Machine

section gate

variable {body : State → State} {s t : State}

theorem commandStep_halted (h : s.halted = true) : commandStep body s = .fault .halted := by simp [commandStep, h]

theorem commandStep_accepting (h : s.accepting) : commandStep body s = .next (body s) := by
  simp [commandStep, h.1, h.2]

theorem commandStep_badWindow (h : s.halted = false) (hw : s.bufsz < s.ports.base.val + s.ports.len.val) :
    commandStep body s = .refused .windowOutsideBufmem := by
  have : s.ports.wellFormed s.bufsz = false := by
    cases hq : s.ports.wellFormed s.bufsz with
    | false => rfl
    | true => rw [request_wellFormed_iff] at hq; omega
  simp [commandStep, h, this]

/-- The gate gives a next state exactly where the block accepts commands, and then it is the body's. -/
theorem commandStep_eq_next : commandStep body s = .next t ↔ s.accepting ∧ body s = t := by
  unfold commandStep
  split
  · next h => simp [h]
  · next h =>
    have h : s.halted = false := by simpa using h
    split
    · next hw =>
      rw [request_wellFormed_iff] at hw
      constructor
      · intro e
        exact ⟨⟨h, hw⟩, Host.Outcome.next.inj e⟩
      · intro e
        rw [e.2]
    · next hw =>
      rw [request_wellFormed_iff] at hw
      constructor
      · intro e
        cases e
      · intro e
        exact absurd e.1.2 hw

end gate

/-- How a command's body can end: in a fault, in DONE with RES for a read whose window is long enough, or in DONE for a write
whose window is long enough, which then has stored the low `w` bytes of some value. -/
inductive BodyEnds (i : Instr) (s t : State) : Prop where
  | fault (c : Cause) (h : t = s.raise c)
  | read (hr : i.isWrite = false) (hl : i.accessWidth s.ports.nb ≤ s.ports.len.val) (v : Value)
      (hv : v.toNat < 2 ^ widthSelBits i.fields.2.1) (h : t = s.doneRes v)
  | write (hw : i.isWrite = true) (hl : i.accessWidth s.ports.nb ≤ s.ports.len.val) (v : Nat)
      (h : t = (s.memWrite 0 (unpack i.fields.2.2.2 (i.accessWidth s.ports.nb) v)).done)

section accesses

variable {i : Instr} {w n c : Nat} {ord : ByteOrder} {s t : State}

theorem readAccess_ends {result : Nat → Value} (hw : w = i.accessWidth s.ports.nb) (hr : i.isWrite = false)
    (hres : ∀ v, v < 2 ^ (8 * w) → (result v).toNat < 2 ^ widthSelBits i.fields.2.1) :
    BodyEnds i s (readAccess w ord result s) := by
  unfold readAccess
  split
  · exact .fault _ rfl
  · next h =>
    refine .read hr (by omega) _ (hres _ ?_) rfl
    have := pack_lt ord (s.memRead 0 w)
    simpa [State.memRead] using this

theorem writeAccess_ends {v : Nat} (hw : w = i.accessWidth s.ports.nb) (hi : i.isWrite = true)
    (ho : ord = i.fields.2.2.2) : BodyEnds i s (writeAccess w ord v s) := by
  unfold writeAccess
  split
  · exact .fault _ rfl
  · next h => subst hw ho; exact .write hi (by omega) v rfl

theorem checkedWrite_ends {v : Nat} {fits : Bool} (hw : w = i.accessWidth s.ports.nb) (hi : i.isWrite = true)
    (ho : ord = i.fields.2.2.2) : BodyEnds i s (checkedWrite fits w ord v s) := by
  unfold checkedWrite
  split
  · exact writeAccess_ends hw hi ho
  · exact .fault _ rfl

theorem fixedRead_ends (h : fixedRead n ord s = .next t) (hw : n / 8 = i.accessWidth s.ports.nb) (hr : i.isWrite = false)
    (hn : 8 * (n / 8) = widthSelBits i.fields.2.1) (hb : widthSelBits i.fields.2.1 ≤ 128) : BodyEnds i s t := by
  obtain ⟨-, rfl⟩ := commandStep_eq_next.1 h
  refine readAccess_ends hw hr fun v hv => ?_
  rw [hn] at hv
  have : 2 ^ widthSelBits i.fields.2.1 ≤ 2 ^ 128 := Nat.pow_le_pow_right (by omega) hb
  rw [BitVec.toNat_ofNat, Nat.mod_eq_of_lt (by omega)]
  exact hv

theorem fixedWrite_ends (h : fixedWrite n ord s = .next t) (hw : n / 8 = i.accessWidth s.ports.nb) (hi : i.isWrite = true)
    (ho : ord = i.fields.2.2.2) : BodyEnds i s t := by
  obtain ⟨-, rfl⟩ := commandStep_eq_next.1 h
  exact writeAccess_ends hw hi ho

theorem nbyteRead_ends {result : Nat → Nat → Value} (h : nbyteRead c ord result s = .next t)
    (hw : s.ports.nb.toNat = i.accessWidth s.ports.nb) (hr : i.isWrite = false)
    (hres : ∀ nb v, nb ≤ c → v < 2 ^ (8 * nb) → (result nb v).toNat < 2 ^ widthSelBits i.fields.2.1) :
    BodyEnds i s t := by
  unfold nbyteRead nbyteCommand at h
  obtain ⟨-, rfl⟩ := commandStep_eq_next.1 h
  split
  · next hl =>
    rw [nbytesLegal_iff] at hl
    exact readAccess_ends hw hr fun v hv => hres _ v hl.2 hv
  · exact .fault _ rfl

theorem nbyteWrite_ends {fits : Nat → State → Bool} {v : Nat → State → Nat}
    (h : nbyteWrite c ord fits v s = .next t)
    (hw : s.ports.nb.toNat = i.accessWidth s.ports.nb) (hi : i.isWrite = true) (ho : ord = i.fields.2.2.2) :
    BodyEnds i s t := by
  unfold nbyteWrite nbyteCommand at h
  obtain ⟨-, rfl⟩ := commandStep_eq_next.1 h
  split
  · exact checkedWrite_ends hw hi ho
  · exact .fault _ rfl

end accesses

/-- The result of a read that is a container cut to, or widened into, RES stays below the container's size. -/
theorem setWidth_lt {n : Nat} (x : BitVec n) : (x.setWidth 128).toNat < 2 ^ n := by
  rw [BitVec.toNat_setWidth]
  exact Nat.lt_of_le_of_lt (Nat.mod_le _ _) x.isLt

theorem ofNat_lt {c nb v : Nat} (hc : 8 * c ≤ 128) (hn : nb ≤ c) (hv : v < 2 ^ (8 * nb)) :
    (BitVec.ofNat 128 v).toNat < 2 ^ (8 * c) := by
  have h1 : 2 ^ (8 * nb) ≤ 2 ^ (8 * c) := Nat.pow_le_pow_right (by omega) (by omega)
  have h2 : 2 ^ (8 * c) ≤ 2 ^ 128 := Nat.pow_le_pow_right (by omega) hc
  rw [BitVec.toNat_ofNat, Nat.mod_eq_of_lt (by omega)]
  omega

/-- Every command passes the gate. -/
theorem exec_is_gated (i : Instr) : ∃ body : State → State, ∀ s, exec i s = commandStep body s := by
  cases i <;> exact ⟨_, fun _ => rfl⟩

/-- A command that gives a next state was accepted, and its body ended in one of three ways. -/
theorem exec_ends {i : Instr} {s t : State} (h : exec i s = .next t) : s.accepting ∧ BodyEnds i s t := by
  refine ⟨?_, ?_⟩
  · obtain ⟨body, hb⟩ := exec_is_gated i
    exact (commandStep_eq_next.1 ((hb s).symm.trans h)).1
  · cases i
    case rdU16Be | rdU16Le | rdU32Be | rdU32Le | rdU64Be | rdU64Le | rdU128Be | rdU128Le | rdI16Be | rdI16Le | rdI32Be
        | rdI32Le | rdI64Be | rdI64Le | rdI128Be | rdI128Le =>
      exact fixedRead_ends h rfl rfl rfl (by decide)
    case wrU16Be | wrU16Le | wrU32Be | wrU32Le | wrU64Be | wrU64Le | wrU128Be | wrU128Le | wrI16Be | wrI16Le | wrI32Be
        | wrI32Le | wrI64Be | wrI64Le | wrI128Be | wrI128Le | wrF32Be | wrF32Le | wrF64Be | wrF64Le =>
      exact fixedWrite_ends h rfl rfl rfl
    case rdF32Be | rdF32Le | rdF64Be | rdF64Le =>
      obtain ⟨-, rfl⟩ := commandStep_eq_next.1 h
      exact readAccess_ends rfl rfl fun v _ => setWidth_lt _
    case rdFloatBe | rdFloatLe =>
      simp only [exec, execRdFloatBe, execRdFloatLe, readFloat] at h
      exact nbyteRead_ends h rfl rfl fun _ _ _ _ => setWidth_lt _
    case rdIntBe | rdIntLe | rdInt128Be | rdInt128Le =>
      simp only [exec, execRdIntBe, execRdIntLe, execRdInt128Be, execRdInt128Le, readInt] at h
      exact nbyteRead_ends h rfl rfl fun _ _ _ _ => setWidth_lt _
    case rdUintBe | rdUintLe =>
      simp only [exec, execRdUintBe, execRdUintLe, readUint] at h
      exact nbyteRead_ends h rfl rfl fun _ _ hn hv => ofNat_lt (c := 8) (by decide) hn hv
    case rdUint128Be | rdUint128Le =>
      simp only [exec, execRdUint128Be, execRdUint128Le, readUint] at h
      exact nbyteRead_ends h rfl rfl fun _ _ hn hv => ofNat_lt (c := 16) (by decide) hn hv
    case wrUintBe | wrUintLe | wrUint128Be | wrUint128Le =>
      simp only [exec, execWrUintBe, execWrUintLe, execWrUint128Be, execWrUint128Le, writeUint] at h
      exact nbyteWrite_ends h rfl rfl rfl
    case wrIntBe | wrIntLe | wrInt128Be | wrInt128Le =>
      simp only [exec, execWrIntBe, execWrIntLe, execWrInt128Be, execWrInt128Le, writeInt] at h
      exact nbyteWrite_ends h rfl rfl rfl

/-- A command is accepted exactly where the block is running and its window lies in BUFMEM; there it gives a next state. -/
theorem exec_accepting (i : Instr) {s : State} (h : s.accepting) : ∃ t, exec i s = .next t ∧ BodyEnds i s t := by
  obtain ⟨body, hb⟩ := exec_is_gated i
  have := (hb s).trans (commandStep_accepting h)
  exact ⟨body s, this, (exec_ends this).2⟩

end Sys2Proof.Machine
end

