-- ==== Sys2Proof/Laws/PerInstr.lean ====
section
/-! SUPPORT. Statements for all commands, one lemma per constructor of Instr. -/

namespace Sys2Proof.Laws

/-- A command decodes from the byte the encoder gives it (30_encoding.md R60, R66, R70). -/
def EncodingRoundTrip.Statement (i : Instr) : Prop := decode (encode i) = .ok i

theorem EncodingRoundTrip.rdU16Be : EncodingRoundTrip.Statement .rdU16Be := rfl
theorem EncodingRoundTrip.rdU16Le : EncodingRoundTrip.Statement .rdU16Le := rfl
theorem EncodingRoundTrip.wrU16Be : EncodingRoundTrip.Statement .wrU16Be := rfl
theorem EncodingRoundTrip.wrU16Le : EncodingRoundTrip.Statement .wrU16Le := rfl
theorem EncodingRoundTrip.rdU32Be : EncodingRoundTrip.Statement .rdU32Be := rfl
theorem EncodingRoundTrip.rdU32Le : EncodingRoundTrip.Statement .rdU32Le := rfl
theorem EncodingRoundTrip.wrU32Be : EncodingRoundTrip.Statement .wrU32Be := rfl
theorem EncodingRoundTrip.wrU32Le : EncodingRoundTrip.Statement .wrU32Le := rfl
theorem EncodingRoundTrip.rdU64Be : EncodingRoundTrip.Statement .rdU64Be := rfl
theorem EncodingRoundTrip.rdU64Le : EncodingRoundTrip.Statement .rdU64Le := rfl
theorem EncodingRoundTrip.wrU64Be : EncodingRoundTrip.Statement .wrU64Be := rfl
theorem EncodingRoundTrip.wrU64Le : EncodingRoundTrip.Statement .wrU64Le := rfl
theorem EncodingRoundTrip.rdU128Be : EncodingRoundTrip.Statement .rdU128Be := rfl
theorem EncodingRoundTrip.rdU128Le : EncodingRoundTrip.Statement .rdU128Le := rfl
theorem EncodingRoundTrip.wrU128Be : EncodingRoundTrip.Statement .wrU128Be := rfl
theorem EncodingRoundTrip.wrU128Le : EncodingRoundTrip.Statement .wrU128Le := rfl
theorem EncodingRoundTrip.rdI16Be : EncodingRoundTrip.Statement .rdI16Be := rfl
theorem EncodingRoundTrip.rdI16Le : EncodingRoundTrip.Statement .rdI16Le := rfl
theorem EncodingRoundTrip.wrI16Be : EncodingRoundTrip.Statement .wrI16Be := rfl
theorem EncodingRoundTrip.wrI16Le : EncodingRoundTrip.Statement .wrI16Le := rfl
theorem EncodingRoundTrip.rdI32Be : EncodingRoundTrip.Statement .rdI32Be := rfl
theorem EncodingRoundTrip.rdI32Le : EncodingRoundTrip.Statement .rdI32Le := rfl
theorem EncodingRoundTrip.wrI32Be : EncodingRoundTrip.Statement .wrI32Be := rfl
theorem EncodingRoundTrip.wrI32Le : EncodingRoundTrip.Statement .wrI32Le := rfl
theorem EncodingRoundTrip.rdI64Be : EncodingRoundTrip.Statement .rdI64Be := rfl
theorem EncodingRoundTrip.rdI64Le : EncodingRoundTrip.Statement .rdI64Le := rfl
theorem EncodingRoundTrip.wrI64Be : EncodingRoundTrip.Statement .wrI64Be := rfl
theorem EncodingRoundTrip.wrI64Le : EncodingRoundTrip.Statement .wrI64Le := rfl
theorem EncodingRoundTrip.rdI128Be : EncodingRoundTrip.Statement .rdI128Be := rfl
theorem EncodingRoundTrip.rdI128Le : EncodingRoundTrip.Statement .rdI128Le := rfl
theorem EncodingRoundTrip.wrI128Be : EncodingRoundTrip.Statement .wrI128Be := rfl
theorem EncodingRoundTrip.wrI128Le : EncodingRoundTrip.Statement .wrI128Le := rfl
theorem EncodingRoundTrip.rdF32Be : EncodingRoundTrip.Statement .rdF32Be := rfl
theorem EncodingRoundTrip.rdF32Le : EncodingRoundTrip.Statement .rdF32Le := rfl
theorem EncodingRoundTrip.wrF32Be : EncodingRoundTrip.Statement .wrF32Be := rfl
theorem EncodingRoundTrip.wrF32Le : EncodingRoundTrip.Statement .wrF32Le := rfl
theorem EncodingRoundTrip.rdF64Be : EncodingRoundTrip.Statement .rdF64Be := rfl
theorem EncodingRoundTrip.rdF64Le : EncodingRoundTrip.Statement .rdF64Le := rfl
theorem EncodingRoundTrip.wrF64Be : EncodingRoundTrip.Statement .wrF64Be := rfl
theorem EncodingRoundTrip.wrF64Le : EncodingRoundTrip.Statement .wrF64Le := rfl
theorem EncodingRoundTrip.rdUintBe : EncodingRoundTrip.Statement .rdUintBe := rfl
theorem EncodingRoundTrip.rdUintLe : EncodingRoundTrip.Statement .rdUintLe := rfl
theorem EncodingRoundTrip.wrUintBe : EncodingRoundTrip.Statement .wrUintBe := rfl
theorem EncodingRoundTrip.wrUintLe : EncodingRoundTrip.Statement .wrUintLe := rfl
theorem EncodingRoundTrip.rdUint128Be : EncodingRoundTrip.Statement .rdUint128Be := rfl
theorem EncodingRoundTrip.rdUint128Le : EncodingRoundTrip.Statement .rdUint128Le := rfl
theorem EncodingRoundTrip.wrUint128Be : EncodingRoundTrip.Statement .wrUint128Be := rfl
theorem EncodingRoundTrip.wrUint128Le : EncodingRoundTrip.Statement .wrUint128Le := rfl
theorem EncodingRoundTrip.rdIntBe : EncodingRoundTrip.Statement .rdIntBe := rfl
theorem EncodingRoundTrip.rdIntLe : EncodingRoundTrip.Statement .rdIntLe := rfl
theorem EncodingRoundTrip.wrIntBe : EncodingRoundTrip.Statement .wrIntBe := rfl
theorem EncodingRoundTrip.wrIntLe : EncodingRoundTrip.Statement .wrIntLe := rfl
theorem EncodingRoundTrip.rdInt128Be : EncodingRoundTrip.Statement .rdInt128Be := rfl
theorem EncodingRoundTrip.rdInt128Le : EncodingRoundTrip.Statement .rdInt128Le := rfl
theorem EncodingRoundTrip.wrInt128Be : EncodingRoundTrip.Statement .wrInt128Be := rfl
theorem EncodingRoundTrip.wrInt128Le : EncodingRoundTrip.Statement .wrInt128Le := rfl
theorem EncodingRoundTrip.rdFloatBe : EncodingRoundTrip.Statement .rdFloatBe := rfl
theorem EncodingRoundTrip.rdFloatLe : EncodingRoundTrip.Statement .rdFloatLe := rfl

end Sys2Proof.Laws
end

