-- ==== Sys2Proof/Laws/Shape.lean ====
section
/-! SUPPORT. The shape of a command: what the request alone settles about it, whatever BUFMEM holds, for both of its
orderings at once. Statements that compare two states, two orderings or two instances cite it. -/

namespace Sys2Proof.Machine

/-- An entry of a list of bytes read from BUFMEM is the byte at its address. -/
theorem readBytes_getElem {m : Memory} {a n k : Nat} (h : k < (m.readBytes a n).length) :
    (m.readBytes a n)[k] = m.read (a + k) := by
  have h' : k < n := by simpa using h
  rw [← readBytes_getD n m a k h', List.getD_eq_getElem _ _ h]

/-- What the request alone settles about the two orderings `ex .be`, `ex .le` of a command of byte width `w`: which fault
it is, or which value is read as a function of Pack, or which value is written. -/
inductive CommandShape (w : Nat) (isWrite : Bool) (p : Request)
    (ex : ByteOrder → State → Host.Outcome State Fault Refusal) : Prop where
  | fault (c : Cause) (h : ∀ o s, s.accepting → s.ports = p → ex o s = .next (s.raise c))
  | read (hr : isWrite = false) (hl : w ≤ p.len.val) (f : Nat → Value)
      (h : ∀ o s, s.accepting → s.ports = p → ex o s = .next (s.doneRes (f (pack o (s.memRead 0 w)))))
  | write (hw : isWrite = true) (hl : w ≤ p.len.val) (v : Nat)
      (h : ∀ o s, s.accepting → s.ports = p → ex o s = .next (s.memWrite 0 (unpack o w v)).done)

section shapes

variable {ex : ByteOrder → State → Host.Outcome State Fault Refusal} {w c : Nat} {p : Request}

theorem readAccess_shape {f : Nat → Value} (h : ∀ o s, ex o s = commandStep (readAccess w o f) s) :
    CommandShape w false p ex := by
  by_cases hl : p.len.val < w
  · exact .fault .shortBuf fun o s hs hp => by rw [h, commandStep_accepting hs, readAccess, if_pos (by rwa [hp])]
  · exact .read rfl (by omega) f fun o s hs hp => by rw [h, commandStep_accepting hs, readAccess, if_neg (by rwa [hp])]

theorem fixedWrite_shape {n : Nat} (hw : n / 8 = w) (h : ∀ o s, ex o s = fixedWrite n o s) :
    CommandShape w true p ex := by
  subst hw
  by_cases hl : p.len.val < n / 8
  · exact .fault .shortBuf fun o s hs hp => by
      rw [h, fixedWrite, commandStep_accepting hs, writeAccess, if_pos (by rwa [hp])]
  · exact .write rfl (by omega) (p.val.setWidth n).toNat fun o s hs hp => by
      rw [h, fixedWrite, commandStep_accepting hs, writeAccess, if_neg (by rwa [hp]), State.valueOperand, hp]

theorem nbyteRead_shape {f : Nat → Nat → Value} (hw : w = p.nb.toNat) (h : ∀ o s, ex o s = nbyteRead c o f s) :
    CommandShape w false p ex := by
  subst hw
  by_cases hn : nbytesLegal c p.nb.toNat = true
  · by_cases hl : p.len.val < p.nb.toNat
    · exact .fault .shortBuf fun o s hs hp => by
        subst hp
        rw [h, nbyteRead, nbyteCommand, commandStep_accepting hs, State.nbytes, if_pos hn, readAccess, if_pos hl]
    · exact .read rfl (by omega) (f p.nb.toNat) fun o s hs hp => by
        subst hp
        rw [h, nbyteRead, nbyteCommand, commandStep_accepting hs, State.nbytes, if_pos hn, readAccess, if_neg hl]
  · exact .fault .nbytesRange fun o s hs hp => by
      subst hp
      rw [h, nbyteRead, nbyteCommand, commandStep_accepting hs, State.nbytes, if_neg hn]

theorem nbyteWrite_shape {fits : Nat → State → Bool} {v : Nat → State → Nat} (fits' : Request → Bool)
    (v' : Request → Nat) (hf : ∀ s, fits s.ports.nb.toNat s = fits' s.ports)
    (hv : ∀ s, v s.ports.nb.toNat s = v' s.ports) (hw : w = p.nb.toNat)
    (h : ∀ o s, ex o s = nbyteWrite c o fits v s) : CommandShape w true p ex := by
  subst hw
  by_cases hn : nbytesLegal c p.nb.toNat = true
  · by_cases hfit : fits' p = true
    · by_cases hl : p.len.val < p.nb.toNat
      · exact .fault .shortBuf fun o s hs hp => by
          subst hp
          rw [h, nbyteWrite, nbyteCommand, commandStep_accepting hs, State.nbytes, if_pos hn, checkedWrite, hf,
            if_pos hfit, writeAccess, if_pos hl]
      · exact .write rfl (by omega) (v' p) fun o s hs hp => by
          subst hp
          rw [h, nbyteWrite, nbyteCommand, commandStep_accepting hs, State.nbytes, if_pos hn, checkedWrite, hf,
            if_pos hfit, writeAccess, if_neg hl, hv]
    · exact .fault .valueRange fun o s hs hp => by
        subst hp
        rw [h, nbyteWrite, nbyteCommand, commandStep_accepting hs, State.nbytes, if_pos hn, checkedWrite, hf,
          if_neg hfit]
  · exact .fault .nbytesRange fun o s hs hp => by
      subst hp
      rw [h, nbyteWrite, nbyteCommand, commandStep_accepting hs, State.nbytes, if_neg hn]

theorem readUint_shape (hw : w = p.nb.toNat) (h : ∀ o s, ex o s = readUint c o s) : CommandShape w false p ex :=
  nbyteRead_shape hw h

theorem readInt_shape (hw : w = p.nb.toNat) (h : ∀ o s, ex o s = readInt c o s) : CommandShape w false p ex :=
  nbyteRead_shape hw h

theorem readFloat_shape (hw : w = p.nb.toNat) (h : ∀ o s, ex o s = readFloat o s) : CommandShape w false p ex :=
  nbyteRead_shape hw h

theorem writeUint_shape {size : Nat → Nat} (hw : w = p.nb.toNat) (h : ∀ o s, ex o s = writeUint c size o s) :
    CommandShape w true p ex :=
  nbyteWrite_shape (fun p => decide (size (p.val.setWidth (8 * c)).toNat ≤ p.nb.toNat))
    (fun p => (p.val.setWidth (8 * c)).toNat) (fun _ => rfl) (fun _ => rfl) hw h

theorem writeInt_shape (hw : w = p.nb.toNat) (h : ∀ o s, ex o s = writeInt c o s) : CommandShape w true p ex :=
  nbyteWrite_shape (fun p => fitsSigned c (p.val.setWidth (8 * c)) p.nb.toNat)
    (fun p => (unextendSign c (p.val.setWidth (8 * c)) p.nb.toNat).toNat) (fun _ => rfl) (fun _ => rfl) hw h

end shapes

/-- The command of each ordering. -/
def ordered (be le : Instr) : ByteOrder → Instr
  | .be => be
  | .le => le

/-- The two orderings of a command have one shape. -/
theorem exec_shape {k : Kind} {w : WidthSel} {d : Direction} {be le : Instr} (hb : instrOfFields k w d .be = .ok be)
    (hl : instrOfFields k w d .le = .ok le) (p : Request) :
    CommandShape (be.accessWidth p.nb) be.isWrite p fun o => exec (ordered be le o) := by
  cases k
  case u | i =>
    cases d
    case rd => cases w <;> cases hb <;> cases hl <;> exact readAccess_shape fun o s => by cases o <;> rfl
    case wr => cases w <;> cases hb <;> cases hl <;> exact fixedWrite_shape rfl fun o s => by cases o <;> rfl
  case f =>
    cases d
    case rd => cases w <;> cases hb <;> cases hl <;> exact readAccess_shape fun o s => by cases o <;> rfl
    case wr => cases w <;> cases hb <;> cases hl <;> exact fixedWrite_shape rfl fun o s => by cases o <;> rfl
  case float =>
    cases d <;> cases w <;> cases hb
    cases hl
    exact readFloat_shape rfl fun o s => by cases o <;> rfl
  case uint =>
    cases d
    case rd => cases w <;> cases hb <;> cases hl <;> exact readUint_shape rfl fun o s => by cases o <;> rfl
    case wr => cases w <;> cases hb <;> cases hl <;> exact writeUint_shape rfl fun o s => by cases o <;> rfl
  case int =>
    cases d
    case rd => cases w <;> cases hb <;> cases hl <;> exact readInt_shape rfl fun o s => by cases o <;> rfl
    case wr => cases w <;> cases hb <;> cases hl <;> exact writeInt_shape rfl fun o s => by cases o <;> rfl

/-- Every command is one of the two orderings of its fields. -/
theorem instr_ordered (i : Instr) : ∃ be le, instrOfFields i.fields.1 i.fields.2.1 i.fields.2.2.1 .be = .ok be ∧
    instrOfFields i.fields.1 i.fields.2.1 i.fields.2.2.1 .le = .ok le ∧ i = ordered be le i.fields.2.2.2 ∧
    (∀ nb, be.accessWidth nb = i.accessWidth nb) ∧ be.isWrite = i.isWrite := by
  cases i <;> exact ⟨_, _, rfl, rfl, rfl, fun _ => rfl, rfl⟩

end Sys2Proof.Machine
end

