-- ==== Sys2Proof/Laws/Step.lean ====
section
/-! SUPPORT. What one step can do, said once. The proofs over steps take these cases instead of unfolding the step. -/

namespace Sys2Proof.Machine

/-- How a step that gives a next state ends: one case per move of the host and per way the block meets a command. -/
inductive StepEnds (s t : State) : Prop where
  | idle (hp : s.pending = []) (h : t = s)
  | ignored (r : Request) (rest : List HostMove) (hp : s.pending = .command r :: rest) (hh : s.halted = true)
      (h : t = { s with pending := rest })
  | executed (r : Request) (rest : List HostMove) (i : Instr) (hp : s.pending = .command r :: rest)
      (hh : s.halted = false) (hd : decode r.cmd = .ok i)
      (h : exec i { s with pending := rest, ports := r } = .next t)
  | illegal (r : Request) (rest : List HostMove) (e : IllegalReason) (hp : s.pending = .command r :: rest)
      (hh : s.halted = false) (hd : decode r.cmd = .error e)
      (h : t = State.raise { s with pending := rest, ports := r } .illegalCmd)
  | readByte (a : Nat) (rest : List HostMove) (hp : s.pending = .readByte a :: rest) (ha : a < s.bufsz)
      (h : t = State.answer { s with pending := rest } (.byte (s.bufmem.read a)))
  | writeByte (a : Nat) (b : Byte) (rest : List HostMove) (hp : s.pending = .writeByte a b :: rest) (ha : a < s.bufsz)
      (h : t = { s with pending := rest, bufmem := s.bufmem.write a b })
  | readStatus (rest : List HostMove) (hp : s.pending = .readStatus :: rest)
      (h : t = State.answer { s with pending := rest } (.status s.status))
  | reset (rest : List HostMove) (hp : s.pending = .reset :: rest)
      (h : t = State.resetEvent { s with pending := rest })

theorem step_idle {s : State} (hp : s.pending = []) : step s = .next s := by simp [step, nextMove, hp]

theorem step_pending {s : State} {m : HostMove} {rest : List HostMove} (hp : s.pending = m :: rest) :
    step s = perform m { s with pending := rest } := by simp [step, nextMove, hp]

theorem present_halted {r : Request} {s : State} (h : s.halted = true) : present r s = .next s := by simp [present, h]

theorem present_legal {r : Request} {s : State} {i : Instr} (h : s.halted = false) (hd : decode r.cmd = .ok i) :
    present r s = exec i { s with ports := r } := by simp [present, h, hd]

theorem present_illegal {r : Request} {s : State} {e : IllegalReason} (h : s.halted = false)
    (hd : decode r.cmd = .error e) : present r s = .next (State.raise { s with ports := r } .illegalCmd) := by
  simp [present, h, hd]

/-- Every step that gives a next state is one of these. -/
theorem step_ends {s t : State} (h : step s = .next t) : StepEnds s t := by
  cases hp : s.pending with
  | nil =>
    rw [step_idle hp] at h
    exact .idle hp (Host.Outcome.next.inj h).symm
  | cons m rest =>
    rw [step_pending hp] at h
    cases m with
    | command r =>
      change present r { s with pending := rest } = .next t at h
      cases hh : s.halted with
      | true =>
        rw [present_halted (s := { s with pending := rest }) hh] at h
        exact .ignored r rest hp hh (Host.Outcome.next.inj h).symm
      | false =>
        cases hd : decode r.cmd with
        | ok i =>
          rw [present_legal (s := { s with pending := rest }) hh hd] at h
          exact .executed r rest i hp hh hd h
        | error e =>
          rw [present_illegal (s := { s with pending := rest }) hh hd] at h
          exact .illegal r rest e hp hh hd (Host.Outcome.next.inj h).symm
    | readByte a =>
      simp only [perform, hostRead] at h
      split at h
      · next ha => exact .readByte a rest hp ha (Host.Outcome.next.inj h).symm
      · cases h
    | writeByte a b =>
      simp only [perform, hostWrite] at h
      split at h
      · next ha => exact .writeByte a b rest hp ha (Host.Outcome.next.inj h).symm
      · cases h
    | readStatus => exact .readStatus rest hp (Host.Outcome.next.inj h).symm
    | reset => exact .reset rest hp (Host.Outcome.next.inj h).symm

end Sys2Proof.Machine
end

