-- ==== Sys2Proof/Tests/Slice0.lean ====
section
/-! SUPPORT. Tests of the model, and for every statement with hypotheses a witness that meets them. The expected values are the
spec's own: the byte table of 30_encoding.md R66, the illegal bytes of R67, and the vectors of 95_test_vectors.md, each test naming
its section. -/

namespace Sys2Proof.Tests

open Sys2Proof.Machine Sys2Proof.Claims

/-! ### Helpers -/

/-- A block with BUFSZ = 32 whose BUFMEM begins with `buf`, and the given command as the host's next move. -/
def given (buf : List Byte) (cmd : Byte) (nb : BitVec 8) (val : Value) (base : Fin 4294967296) (len : Fin 4294967297) : State :=
  { State.reset with
    bufmem := Memory.writeBytes [] 0 buf, bufsz := 32,
    pending := [.command { cmd := cmd, nb := nb, val := val, base := base, len := len }] }

/-- The same block with the request already on its ports. -/
def onPorts (buf : List Byte) (cmd : Byte) (nb : BitVec 8) (val : Value) (base : Fin 4294967296) (len : Fin 4294967297) :
    State :=
  { State.reset with
    bufmem := Memory.writeBytes [] 0 buf, bufsz := 32,
    ports := { cmd := cmd, nb := nb, val := val, base := base, len := len } }

/-- After one step: STATUS, the answers, and the first `n` bytes of BUFMEM; none if the step stops. -/
def after (n : Nat) (s : State) : Option (BitVec 4 × List Answer × List Byte) :=
  match step s with
  | .next t => some (t.status, t.answers, t.bufmem.readBytes 0 n)
  | .fault _ => none
  | .refused _ => none

/-- After one step: STATUS and RES of a read that answered DONE. -/
def result (s : State) : Option (BitVec 4 × Value) :=
  match step s with
  | .next { status := st, answers := [.response (.doneRes v)], .. } => some (st, v)
  | .next _ => none
  | .fault _ => none
  | .refused _ => none

/-- How a step stops, if it does. -/
def stopsWith (s : State) : Option (Fault ⊕ Refusal) :=
  match step s with
  | .next _ => none
  | .fault f => some (.inl f)
  | .refused r => some (.inr r)

/-- The bytes 01 02 .. 10 of 95_test_vectors.md section 2.1. -/
def counting : List Byte := [0x01, 0x02, 0x03, 0x04, 0x05, 0x06, 0x07, 0x08, 0x09, 0x0A, 0x0B, 0x0C, 0x0D, 0x0E, 0x0F, 0x10]

/-- The bytes 80 81 .. 8F of 95_test_vectors.md section 2.2. -/
def highBytes : List Byte := [0x80, 0x81, 0x82, 0x83, 0x84, 0x85, 0x86, 0x87, 0x88, 0x89, 0x8A, 0x8B, 0x8C, 0x8D, 0x8E, 0x8F]

/-- `n` bytes EE. -/
def filler (n : Nat) : List Byte := List.replicate n 0xEE

/-! ### Decoding: every byte of 30_encoding.md R66, written out bit by bit -/

/-- KIND 0, the fixed-width unsigned commands. -/
theorem test_decode_u :
    ([
      (0b00000000#8, Instr.rdU16Be), (0b00000001#8, Instr.rdU16Le), (0b00000010#8, Instr.wrU16Be),
      (0b00000011#8, Instr.wrU16Le), (0b00000100#8, Instr.rdU32Be), (0b00000101#8, Instr.rdU32Le),
      (0b00000110#8, Instr.wrU32Be), (0b00000111#8, Instr.wrU32Le), (0b00001000#8, Instr.rdU64Be),
      (0b00001001#8, Instr.rdU64Le), (0b00001010#8, Instr.wrU64Be), (0b00001011#8, Instr.wrU64Le),
      (0b00001100#8, Instr.rdU128Be), (0b00001101#8, Instr.rdU128Le), (0b00001110#8, Instr.wrU128Be),
      (0b00001111#8, Instr.wrU128Le)]
      : List (Byte × Instr)).all (fun r =>
        encode r.2 == r.1 && (match decode r.1 with | .ok i => i == r.2 | .error _ => false)) = true := by decide

/-- KIND 1, the fixed-width signed commands. -/
theorem test_decode_i :
    ([
      (0b00010000#8, Instr.rdI16Be), (0b00010001#8, Instr.rdI16Le), (0b00010010#8, Instr.wrI16Be),
      (0b00010011#8, Instr.wrI16Le), (0b00010100#8, Instr.rdI32Be), (0b00010101#8, Instr.rdI32Le),
      (0b00010110#8, Instr.wrI32Be), (0b00010111#8, Instr.wrI32Le), (0b00011000#8, Instr.rdI64Be),
      (0b00011001#8, Instr.rdI64Le), (0b00011010#8, Instr.wrI64Be), (0b00011011#8, Instr.wrI64Le),
      (0b00011100#8, Instr.rdI128Be), (0b00011101#8, Instr.rdI128Le), (0b00011110#8, Instr.wrI128Be),
      (0b00011111#8, Instr.wrI128Le)]
      : List (Byte × Instr)).all (fun r =>
        encode r.2 == r.1 && (match decode r.1 with | .ok i => i == r.2 | .error _ => false)) = true := by decide

/-- KIND 2, the float commands. -/
theorem test_decode_f :
    ([
      (0b00100100#8, Instr.rdF32Be), (0b00100101#8, Instr.rdF32Le), (0b00100110#8, Instr.wrF32Be),
      (0b00100111#8, Instr.wrF32Le), (0b00101000#8, Instr.rdF64Be), (0b00101001#8, Instr.rdF64Le),
      (0b00101010#8, Instr.wrF64Be), (0b00101011#8, Instr.wrF64Le)]
      : List (Byte × Instr)).all (fun r =>
        encode r.2 == r.1 && (match decode r.1 with | .ok i => i == r.2 | .error _ => false)) = true := by decide

/-- KIND 4, the n-byte unsigned commands. -/
theorem test_decode_uint :
    ([
      (0b01001000#8, Instr.rdUintBe), (0b01001001#8, Instr.rdUintLe), (0b01001010#8, Instr.wrUintBe),
      (0b01001011#8, Instr.wrUintLe), (0b01001100#8, Instr.rdUint128Be), (0b01001101#8, Instr.rdUint128Le),
      (0b01001110#8, Instr.wrUint128Be), (0b01001111#8, Instr.wrUint128Le)]
      : List (Byte × Instr)).all (fun r =>
        encode r.2 == r.1 && (match decode r.1 with | .ok i => i == r.2 | .error _ => false)) = true := by decide

/-- KIND 5, the n-byte signed commands. -/
theorem test_decode_int :
    ([
      (0b01011000#8, Instr.rdIntBe), (0b01011001#8, Instr.rdIntLe), (0b01011010#8, Instr.wrIntBe),
      (0b01011011#8, Instr.wrIntLe), (0b01011100#8, Instr.rdInt128Be), (0b01011101#8, Instr.rdInt128Le),
      (0b01011110#8, Instr.wrInt128Be), (0b01011111#8, Instr.wrInt128Le)]
      : List (Byte × Instr)).all (fun r =>
        encode r.2 == r.1 && (match decode r.1 with | .ok i => i == r.2 | .error _ => false)) = true := by decide

/-- KIND 6, the n-byte float reads. -/
theorem test_decode_float :
    ([
      (0b01101000#8, Instr.rdFloatBe), (0b01101001#8, Instr.rdFloatLe)]
      : List (Byte × Instr)).all (fun r =>
        encode r.2 == r.1 && (match decode r.1 with | .ok i => i == r.2 | .error _ => false)) = true := by decide

/-- 30_encoding.md R67: one byte of each row of its table, with the reason. -/
theorem test_decode_illegal :
    ([(0b00100000#8, .noSuchFloat), (0b00101100#8, .noSuchFloat), (0b00110000#8, .reservedKind),
      (0b01000000#8, .noSuchContainer), (0b01000111#8, .noSuchContainer), (0b01010100#8, .noSuchContainer),
      (0b01100000#8, .floatNotBinary64), (0b01101010#8, .noFloatWrite), (0b01101011#8, .noFloatWrite),
      (0b01101100#8, .floatNotBinary64), (0b01110000#8, .reservedKind), (0b10000000#8, .zBitSet),
      (0b11111111#8, .zBitSet)] : List (Byte × IllegalReason)).all (fun r =>
        match decode r.1 with | .ok _ => false | .error e => e == r.2) = true := by decide

/-- 30_encoding.md R67: 198 bytes are illegal. -/
theorem test_decode_count :
    ((List.range 256).filter fun n => (match decode (BitVec.ofNat 8 n) with | .ok _ => false | .error _ => true)).length = 198 := by
  decide +kernel

/-- Two bytes of the opcode table as the host's table word gives them, and one that is none. -/
theorem test_decodeTableWord : decodeTableWord 8 0x5B = some .wrIntLe ∧ decodeTableWord 8 0x24 = some .rdF32Be ∧
    decodeTableWord 8 0x6B = none := by decide

/-! ### Well-formedness: an ill-formed term for each check -/

/-- EXT128 = 0: a 128-bit command is refused, a 64-bit one is not (00_scope.md R6). -/
theorem test_wellFormed_ext128 : Instr.wellFormed false .rdU128Be = false ∧ Instr.wellFormed false .wrInt128Le = false ∧
    Instr.wellFormed false .rdU64Be = true ∧ Instr.wellFormed true .rdU128Be = true := by decide

/-- The decoder of an implementation with EXT128 = 0 refuses the byte by name (30_encoding.md R67). -/
theorem test_decode_ext128_absent :
    (match decodeWith false 0b00001100#8 with | .ok _ => false | .error e => e == .ext128Absent) = true := by decide

/-- A request whose window ends one byte after BUFMEM is refused, one that ends with it is not (20_memory.md R47). -/
theorem test_wellFormed_window :
    Request.wellFormed 32 { cmd := 0#8, nb := 0#8, val := 0#128, base := 31, len := 2 } = false ∧
    Request.wellFormed 32 { cmd := 0#8, nb := 0#8, val := 0#128, base := 30, len := 2 } = true := by decide

/-! ### One step per command: the vectors of 95_test_vectors.md -/

/-- 95_test_vectors.md section 2.1, reads: `RD.U16.BE`. -/
theorem test_rdU16Be :
    result (given counting 0x00 0 0 0 16) =
    some (0b0000#4, 0x102#128) := by decide

/-- 95_test_vectors.md section 2.1, reads: `RD.U16.LE`. -/
theorem test_rdU16Le :
    result (given counting 0x01 0 0 0 16) =
    some (0b0000#4, 0x201#128) := by decide

/-- 95_test_vectors.md section 2.1, reads: `RD.U32.BE`. -/
theorem test_rdU32Be :
    result (given counting 0x04 0 0 0 16) =
    some (0b0000#4, 0x1020304#128) := by decide

/-- 95_test_vectors.md section 2.1, reads: `RD.U32.LE`. -/
theorem test_rdU32Le :
    result (given counting 0x05 0 0 0 16) =
    some (0b0000#4, 0x4030201#128) := by decide

/-- 95_test_vectors.md section 2.1, reads: `RD.U64.BE`. -/
theorem test_rdU64Be :
    result (given counting 0x08 0 0 0 16) =
    some (0b0000#4, 0x102030405060708#128) := by decide

/-- 95_test_vectors.md section 2.1, reads: `RD.U64.LE`. -/
theorem test_rdU64Le :
    result (given counting 0x09 0 0 0 16) =
    some (0b0000#4, 0x807060504030201#128) := by decide

/-- 95_test_vectors.md section 2.1, reads: `RD.U128.BE`. -/
theorem test_rdU128Be :
    result (given counting 0x0C 0 0 0 16) =
    some (0b0000#4, 0x102030405060708090A0B0C0D0E0F10#128) := by decide

/-- 95_test_vectors.md section 2.1, reads: `RD.U128.LE`. -/
theorem test_rdU128Le :
    result (given counting 0x0D 0 0 0 16) =
    some (0b0000#4, 0x100F0E0D0C0B0A090807060504030201#128) := by decide

/-- 95_test_vectors.md E6, second read: `RD.U16.BE`. -/
theorem test_rdU16Be_edge :
    result (given [0x02, 0x05, 0x03, 0x00] 0x00 0 0 2 2) =
    some (0b0000#4, 0x300#128) := by decide

/-- 95_test_vectors.md section 2.1, LEN = 0: `RD.U16.LE`. -/
theorem test_rdU16Le_edge :
    after 2 (given [0x12, 0x34] 0x01 0 0 0 0) =
    some (0b1001#4, [.response (.fault .shortBuf)], [0x12, 0x34]) := by decide

/-- 95_test_vectors.md section 2.1, BASE odd: `RD.U32.BE`. -/
theorem test_rdU32Be_edge :
    result (given [0x00, 0x11, 0x22, 0x33, 0x44] 0x04 0 0 1 4) =
    some (0b0000#4, 0x11223344#128) := by decide

/-- 95_test_vectors.md E2: `RD.U32.LE`. -/
theorem test_rdU32Le_edge :
    after 3 (given [0x01, 0x02, 0x03] 0x05 0 0 0 3) =
    some (0b1001#4, [.response (.fault .shortBuf)], [0x01, 0x02, 0x03]) := by decide

/-- 95_test_vectors.md section 2.1, LEN = 15: `RD.U128.BE`. -/
theorem test_rdU128Be_edge :
    after 16 (given [0x00, 0x01, 0x02, 0x03, 0x04, 0x05, 0x06, 0x07, 0x08, 0x09, 0x0A, 0x0B, 0x0C, 0x0D, 0x0E, 0x0F] 0x0C 0 0 0 15) =
    some (0b1001#4, [.response (.fault .shortBuf)], [0x00, 0x01, 0x02, 0x03, 0x04, 0x05, 0x06, 0x07, 0x08, 0x09, 0x0A, 0x0B, 0x0C, 0x0D, 0x0E, 0x0F]) := by decide

/-- 95_test_vectors.md section 2.1, signed reads: `RD.I16.BE`. -/
theorem test_rdI16Be :
    result (given [0xFF, 0xFE] 0x10 0 0 0 2) =
    some (0b0000#4, 0xFFFE#128) := by decide

/-- 95_test_vectors.md section 2.1, signed reads: `RD.I16.LE`. -/
theorem test_rdI16Le :
    result (given [0xFF, 0xFE] 0x11 0 0 0 2) =
    some (0b0000#4, 0xFEFF#128) := by decide

/-- 95_test_vectors.md section 2.1, signed reads: `RD.I32.BE`. -/
theorem test_rdI32Be :
    result (given [0xFF, 0xFF, 0xFF, 0xFF] 0x14 0 0 0 4) =
    some (0b0000#4, 0xFFFFFFFF#128) := by decide

/-- 95_test_vectors.md section 2.1, signed reads: `RD.I32.LE`. -/
theorem test_rdI32Le :
    result (given [0x00, 0x00, 0x00, 0x80] 0x15 0 0 0 4) =
    some (0b0000#4, 0x80000000#128) := by decide

/-- 95_test_vectors.md section 2.1, signed reads: `RD.I64.BE`. -/
theorem test_rdI64Be :
    result (given ([0x85] ++ List.replicate 7 0xFF) 0x18 0 0 0 8) =
    some (0b0000#4, 0x85FFFFFFFFFFFFFF#128) := by decide

/-- 95_test_vectors.md section 2.1, signed reads: `RD.I64.LE`. -/
theorem test_rdI64Le :
    result (given ([0xFE] ++ List.replicate 7 0xFF) 0x19 0 0 0 8) =
    some (0b0000#4, 0xFFFFFFFFFFFFFFFE#128) := by decide

/-- 95_test_vectors.md section 2.1, signed reads: `RD.I128.BE`. -/
theorem test_rdI128Be :
    result (given ([0x80] ++ List.replicate 14 0x00 ++ [0x01]) 0x1C 0 0 0 16) =
    some (0b0000#4, 0x80000000000000000000000000000001#128) := by decide

/-- 95_test_vectors.md section 2.1, signed reads: `RD.I128.LE`. -/
theorem test_rdI128Le :
    result (given (List.replicate 16 0xFF) 0x1D 0 0 0 16) =
    some (0b0000#4, 0xFFFFFFFFFFFFFFFFFFFFFFFFFFFFFFFF#128) := by decide

/-- 95_test_vectors.md section 2.1, writes: `WR.U16.BE`. -/
theorem test_wrU16Be :
    after 20 (given (filler 20) 0x02 0 0xABCD 2 18) =
    some (0b0000#4, [.response (.done)], (filler 2 ++ [0xAB, 0xCD] ++ filler 16)) := by decide

/-- 95_test_vectors.md section 2.1, writes: `WR.U16.LE`. -/
theorem test_wrU16Le :
    after 20 (given (filler 20) 0x03 0 0xABCD 2 18) =
    some (0b0000#4, [.response (.done)], (filler 2 ++ [0xCD, 0xAB] ++ filler 16)) := by decide

/-- 95_test_vectors.md section 2.1, writes: `WR.U32.BE`. -/
theorem test_wrU32Be :
    after 20 (given (filler 20) 0x06 0 0x1020304 2 18) =
    some (0b0000#4, [.response (.done)], (filler 2 ++ [0x01, 0x02, 0x03, 0x04] ++ filler 14)) := by decide

/-- 95_test_vectors.md section 2.1, writes: `WR.U32.LE`. -/
theorem test_wrU32Le :
    after 20 (given (filler 20) 0x07 0 0x1020304 2 18) =
    some (0b0000#4, [.response (.done)], (filler 2 ++ [0x04, 0x03, 0x02, 0x01] ++ filler 14)) := by decide

/-- 95_test_vectors.md section 2.1, writes: `WR.U64.BE`. -/
theorem test_wrU64Be :
    after 20 (given (filler 20) 0x0A 0 0x123456789ABCDEF 2 18) =
    some (0b0000#4, [.response (.done)], (filler 2 ++ [0x01, 0x23, 0x45, 0x67, 0x89, 0xAB, 0xCD, 0xEF] ++ filler 10)) := by decide

/-- 95_test_vectors.md section 2.1, writes: `WR.U64.LE`. -/
theorem test_wrU64Le :
    after 20 (given (filler 20) 0x0B 0 0x123456789ABCDEF 2 18) =
    some (0b0000#4, [.response (.done)], (filler 2 ++ [0xEF, 0xCD, 0xAB, 0x89, 0x67, 0x45, 0x23, 0x01] ++ filler 10)) := by decide

/-- 95_test_vectors.md section 2.1, writes: `WR.U128.BE`. -/
theorem test_wrU128Be :
    after 20 (given (filler 20) 0x0E 0 0x102030405060708090A0B0C0D0E0F 2 18) =
    some (0b0000#4, [.response (.done)], (filler 2 ++ [0x00, 0x01, 0x02, 0x03, 0x04, 0x05, 0x06, 0x07, 0x08, 0x09, 0x0A, 0x0B, 0x0C, 0x0D, 0x0E, 0x0F] ++ filler 2)) := by decide

/-- 95_test_vectors.md section 2.1, writes: `WR.U128.LE`. -/
theorem test_wrU128Le :
    after 20 (given (filler 20) 0x0F 0 0x102030405060708090A0B0C0D0E0F 2 18) =
    some (0b0000#4, [.response (.done)], (filler 2 ++ [0x0F, 0x0E, 0x0D, 0x0C, 0x0B, 0x0A, 0x09, 0x08, 0x07, 0x06, 0x05, 0x04, 0x03, 0x02, 0x01, 0x00] ++ filler 2)) := by decide

/-- 95_test_vectors.md section 2.1, writes: `WR.I16.BE`. -/
theorem test_wrI16Be :
    after 20 (given (filler 20) 0x12 0 0xFFFE 2 18) =
    some (0b0000#4, [.response (.done)], (filler 2 ++ [0xFF, 0xFE] ++ filler 16)) := by decide

/-- 95_test_vectors.md section 2.1, writes: `WR.I16.LE`. -/
theorem test_wrI16Le :
    after 20 (given (filler 20) 0x13 0 0xFFFE 2 18) =
    some (0b0000#4, [.response (.done)], (filler 2 ++ [0xFE, 0xFF] ++ filler 16)) := by decide

/-- 95_test_vectors.md section 2.1, writes: `WR.I32.BE`. -/
theorem test_wrI32Be :
    after 20 (given (filler 20) 0x16 0 0x80000000 2 18) =
    some (0b0000#4, [.response (.done)], (filler 2 ++ [0x80, 0x00, 0x00, 0x00] ++ filler 14)) := by decide

/-- 95_test_vectors.md section 2.1, writes: `WR.I32.LE`. -/
theorem test_wrI32Le :
    after 20 (given (filler 20) 0x17 0 0x80000000 2 18) =
    some (0b0000#4, [.response (.done)], (filler 2 ++ [0x00, 0x00, 0x00, 0x80] ++ filler 14)) := by decide

/-- 95_test_vectors.md section 2.1, writes: `WR.I64.BE`. -/
theorem test_wrI64Be :
    after 20 (given (filler 20) 0x1A 0 0xFFFFFFFFFFFFFFFF 2 18) =
    some (0b0000#4, [.response (.done)], (filler 2 ++ List.replicate 8 0xFF ++ filler 10)) := by decide

/-- 95_test_vectors.md section 2.1, writes: `WR.I64.LE`. -/
theorem test_wrI64Le :
    after 20 (given (filler 20) 0x1B 0 0xFFFFFFFFFFFFFFFF 2 18) =
    some (0b0000#4, [.response (.done)], (filler 2 ++ List.replicate 8 0xFF ++ filler 10)) := by decide

/-- 95_test_vectors.md section 2.1, writes: `WR.I128.BE`. -/
theorem test_wrI128Be :
    after 20 (given (filler 20) 0x1E 0 0x80000000000000000000000000000001 2 18) =
    some (0b0000#4, [.response (.done)], (filler 2 ++ [0x80] ++ List.replicate 14 0x00 ++ [0x01] ++ filler 2)) := by decide

/-- 95_test_vectors.md section 2.1, writes: `WR.I128.LE`. -/
theorem test_wrI128Le :
    after 20 (given (filler 20) 0x1F 0 0x80000000000000000000000000000001 2 18) =
    some (0b0000#4, [.response (.done)], (filler 2 ++ [0x01] ++ List.replicate 14 0x00 ++ [0x80] ++ filler 2)) := by decide

/-- 95_test_vectors.md section 2.1, VAL above N ignored: `WR.U16.BE`. -/
theorem test_wrU16Be_edge :
    after 2 (given [0x00, 0x00] 0x02 0 0xFFFFABCD1234 0 2) =
    some (0b0000#4, [.response (.done)], [0x12, 0x34]) := by decide

/-- 95_test_vectors.md E7, second write: `WR.U16.LE`. -/
theorem test_wrU16Le_edge :
    after 4 (given [0x05, 0x02, 0x00, 0x00] 0x03 0 768 2 2) =
    some (0b0000#4, [.response (.done)], [0x05, 0x02, 0x00, 0x03]) := by decide

/-- 95_test_vectors.md section 2.1, LEN = W - 1: `WR.U32.LE`. -/
theorem test_wrU32Le_edge :
    after 4 (given (filler 4) 0x07 0 0x1020304 0 3) =
    some (0b1001#4, [.response (.fault .shortBuf)], (filler 4)) := by decide

/-- 95_test_vectors.md E3: `WR.U64.BE`. -/
theorem test_wrU64Be_edge :
    after 7 (given (List.replicate 7 0xAA) 0x0A 0 0x0102030405060708 0 7) =
    some (0b1001#4, [.response (.fault .shortBuf)], (List.replicate 7 0xAA)) := by decide

/-- 95_test_vectors.md section 2.2, NB = 3: `RD.UINT.BE`. -/
theorem test_rdUintBe :
    result (given highBytes 0x48 3 0 0 8) =
    some (0b0000#4, 0x808182#128) := by decide

/-- 95_test_vectors.md section 2.2, NB = 0 and LEN = 0: `RD.UINT.BE`. -/
theorem test_rdUintBe_edge :
    after 2 (given (filler 2) 0x48 0 0 0 0) =
    some (0b0101#4, [.response (.fault .nbytesRange)], (filler 2)) := by decide

/-- 95_test_vectors.md E5: `RD.UINT.LE`. -/
theorem test_rdUintLe :
    result (given [0x01, 0x02, 0x03, 0x04, 0x05] 0x49 5 0 0 5) =
    some (0b0000#4, 0x504030201#128) := by decide

/-- 95_test_vectors.md section 2.2, NB = 9: `RD.UINT.LE`. -/
theorem test_rdUintLe_edge :
    after 8 (given (filler 8) 0x49 9 0 0 8) =
    some (0b0101#4, [.response (.fault .nbytesRange)], (filler 8)) := by decide

/-- 95_test_vectors.md section 2.2, NB = 3: `RD.INT.BE`. -/
theorem test_rdIntBe :
    result (given highBytes 0x58 3 0 0 8) =
    some (0b0000#4, 0xFFFFFFFFFF808182#128) := by decide

/-- 95_test_vectors.md section 2.2, positive: `RD.INT.BE`. -/
theorem test_rdIntBe_edge :
    result (given [0x7F, 0xFF, 0xFE] 0x58 3 0 0 3) =
    some (0b0000#4, 0x7FFFFE#128) := by decide

/-- 95_test_vectors.md section 2.2, the top byte is the last: `RD.INT.LE`. -/
theorem test_rdIntLe :
    result (given [0x7F, 0xFF, 0xFE] 0x59 3 0 0 3) =
    some (0b0000#4, 0xFFFFFFFFFFFEFF7F#128) := by decide

/-- 95_test_vectors.md section 2.2, NB = 8: `RD.INT.LE`. -/
theorem test_rdIntLe_edge :
    result (given highBytes 0x59 8 0 0 8) =
    some (0b0000#4, 0x8786858483828180#128) := by decide

/-- 95_test_vectors.md section 2.2, writes: `WR.UINT.BE`. -/
theorem test_wrUintBe :
    after 8 (given (filler 8) 0x4A 3 0x1E240 0 8) =
    some (0b0000#4, [.response (.done)], ([0x01, 0xE2, 0x40] ++ filler 5)) := by decide

/-- 95_test_vectors.md section 2.2, the value is checked before LEN: `WR.UINT.BE`. -/
theorem test_wrUintBe_edge :
    after 8 (given (filler 8) 0x4A 1 0x100 0 0) =
    some (0b0111#4, [.response (.fault .valueRange)], (filler 8)) := by decide

/-- 95_test_vectors.md E4: `WR.UINT.LE`. -/
theorem test_wrUintLe :
    after 8 (given (List.replicate 8 0x00) 0x4B 5 0x0102030405 0 8) =
    some (0b0000#4, [.response (.done)], [0x05, 0x04, 0x03, 0x02, 0x01, 0x00, 0x00, 0x00]) := by decide

/-- 95_test_vectors.md section 2.2, NB = 8: `WR.UINT.LE`. -/
theorem test_wrUintLe_edge :
    after 8 (given (filler 8) 0x4B 8 0xFFFFFFFFFFFFFFFF 0 8) =
    some (0b0000#4, [.response (.done)], (List.replicate 8 0xFF)) := by decide

/-- 95_test_vectors.md section 2.2, least 3-byte value: `WR.INT.BE`. -/
theorem test_wrIntBe :
    after 8 (given (filler 8) 0x5A 3 0xFFFFFFFFFF800000 0 8) =
    some (0b0000#4, [.response (.done)], ([0x80, 0x00, 0x00] ++ filler 5)) := by decide

/-- 95_test_vectors.md section 2.2, one below it: `WR.INT.BE`. -/
theorem test_wrIntBe_edge :
    after 8 (given (filler 8) 0x5A 3 0xFFFFFFFFFF7FFFFF 0 8) =
    some (0b0111#4, [.response (.fault .valueRange)], (filler 8)) := by decide

/-- 95_test_vectors.md section 2.2, -2 in 5 bytes: `WR.INT.LE`. -/
theorem test_wrIntLe :
    after 8 (given (filler 8) 0x5B 5 0xFFFFFFFFFFFFFFFE 0 8) =
    some (0b0000#4, [.response (.done)], ([0xFE, 0xFF, 0xFF, 0xFF, 0xFF] ++ filler 3)) := by decide

/-- 95_test_vectors.md section 2.2, value before LEN: `WR.INT.LE`. -/
theorem test_wrIntLe_edge :
    after 8 (given (filler 8) 0x5B 1 0xFFFFFFFFFFFFFF7F 0 0) =
    some (0b0111#4, [.response (.fault .valueRange)], (filler 8)) := by decide

/-- 95_test_vectors.md section 2.2, NB = 11: `RD.UINT128.BE`. -/
theorem test_rdUint128Be :
    result (given highBytes 0x4C 11 0 0 16) =
    some (0b0000#4, 0x808182838485868788898A#128) := by decide

/-- 95_test_vectors.md section 2.2, NB = 17: `RD.UINT128.BE`. -/
theorem test_rdUint128Be_edge :
    after 16 (given (filler 16) 0x4C 17 0 0 16) =
    some (0b0101#4, [.response (.fault .nbytesRange)], (filler 16)) := by decide

/-- 95_test_vectors.md section 2.2, NB = 9: `RD.UINT128.LE`. -/
theorem test_rdUint128Le :
    result (given highBytes 0x4D 9 0 0 16) =
    some (0b0000#4, 0x888786858483828180#128) := by decide

/-- 95_test_vectors.md section 2.2, NB = 11: `RD.INT128.BE`. -/
theorem test_rdInt128Be :
    result (given highBytes 0x5C 11 0 0 16) =
    some (0b0000#4, 0xFFFFFFFFFF808182838485868788898A#128) := by decide

/-- 95_test_vectors.md section 2.2, NB = 15: `RD.INT128.LE`. -/
theorem test_rdInt128Le :
    result (given highBytes 0x5D 15 0 0 16) =
    some (0b0000#4, 0xFF8E8D8C8B8A89888786858483828180#128) := by decide

/-- 95_test_vectors.md section 2.2, 2^72 - 1 in 9 bytes: `WR.UINT128.BE`. -/
theorem test_wrUint128Be :
    after 16 (given (filler 16) 0x4E 9 0xFFFFFFFFFFFFFFFFFF 0 16) =
    some (0b0000#4, [.response (.done)], (List.replicate 9 0xFF ++ filler 7)) := by decide

/-- 95_test_vectors.md section 2.2, 2^72 in 9 bytes: `WR.UINT128.BE`. -/
theorem test_wrUint128Be_edge :
    after 16 (given (filler 16) 0x4E 9 0x1000000000000000000 0 16) =
    some (0b0111#4, [.response (.fault .valueRange)], (filler 16)) := by decide

/-- 95_test_vectors.md section 2.2: `WR.UINT128.LE`. -/
theorem test_wrUint128Le :
    after 16 (given (filler 16) 0x4F 10 0x102030405060708090A 0 16) =
    some (0b0000#4, [.response (.done)], ([0x0A, 0x09, 0x08, 0x07, 0x06, 0x05, 0x04, 0x03, 0x02, 0x01] ++ filler 6)) := by decide

/-- 95_test_vectors.md section 2.2, -2^87 in 11 bytes: `WR.INT128.BE`. -/
theorem test_wrInt128Be :
    after 16 (given (filler 16) 0x5E 11 0xFFFFFFFFFF8000000000000000000000 0 16) =
    some (0b0000#4, [.response (.done)], ([0x80] ++ List.replicate 10 0x00 ++ filler 5)) := by decide

/-- 95_test_vectors.md section 2.2, 2^87 in 11 bytes: `WR.INT128.BE`. -/
theorem test_wrInt128Be_edge :
    after 16 (given (filler 16) 0x5E 11 0x8000000000000000000000 0 16) =
    some (0b0111#4, [.response (.fault .valueRange)], (filler 16)) := by decide

/-- 95_test_vectors.md section 2.2, -2^127 in 16 bytes: `WR.INT128.LE`. -/
theorem test_wrInt128Le :
    after 16 (given (filler 16) 0x5F 16 0x80000000000000000000000000000000 0 16) =
    some (0b0000#4, [.response (.done)], (List.replicate 15 0x00 ++ [0x80])) := by decide

/-- 95_test_vectors.md E1: `RD.F32.BE`. -/
theorem test_rdF32Be :
    result (given [0xFF, 0x80, 0x00, 0x01] 0x24 0 0 0 4) =
    some (0b0000#4, 0xFFC00001#128) := by decide

/-- 95_test_vectors.md section 2.3, infinity: `RD.F32.BE`. -/
theorem test_rdF32Be_edge :
    result (given [0x7F, 0x80, 0x00, 0x00] 0x24 0 0 0 4) =
    some (0b0000#4, 0x7F800000#128) := by decide

/-- 95_test_vectors.md section 2.3: `RD.F32.LE`. -/
theorem test_rdF32Le :
    result (given [0x01, 0x00, 0x80, 0xFF] 0x25 0 0 0 4) =
    some (0b0000#4, 0xFFC00001#128) := by decide

/-- 95_test_vectors.md section 2.3: `RD.F32.LE`. -/
theorem test_rdF32Le_edge :
    result (given [0xFF, 0x80, 0x00, 0x01] 0x25 0 0 0 4) =
    some (0b0000#4, 0x10080FF#128) := by decide

/-- 95_test_vectors.md section 2.3, a signaling NaN is written unchanged: `WR.F32.BE`. -/
theorem test_wrF32Be :
    after 4 (given (filler 4) 0x26 0 0xFF800001 0 4) =
    some (0b0000#4, [.response (.done)], [0xFF, 0x80, 0x00, 0x01]) := by decide

/-- 95_test_vectors.md section 2.3: `WR.F32.LE`. -/
theorem test_wrF32Le :
    after 4 (given (filler 4) 0x27 0 0xFFC00001 0 4) =
    some (0b0000#4, [.response (.done)], [0x01, 0x00, 0xC0, 0xFF]) := by decide

/-- 95_test_vectors.md section 2.3: `RD.F64.BE`. -/
theorem test_rdF64Be :
    result (given [0x7F, 0xF0, 0x00, 0x00, 0x00, 0x00, 0x00, 0x01] 0x28 0 0 0 8) =
    some (0b0000#4, 0x7FF8000000000001#128) := by decide

/-- 95_test_vectors.md section 2.3: `RD.F64.BE`. -/
theorem test_rdF64Be_edge :
    result (given [0x40, 0x09, 0x21, 0xFB, 0x54, 0x44, 0x2D, 0x18] 0x28 0 0 0 8) =
    some (0b0000#4, 0x400921FB54442D18#128) := by decide

/-- 95_test_vectors.md section 2.3: `RD.F64.LE`. -/
theorem test_rdF64Le :
    result (given [0x01, 0x00, 0x00, 0x00, 0x00, 0x00, 0xF0, 0xFF] 0x29 0 0 0 8) =
    some (0b0000#4, 0xFFF8000000000001#128) := by decide

/-- 95_test_vectors.md section 2.3: `WR.F64.BE`. -/
theorem test_wrF64Be :
    after 8 (given (filler 8) 0x2A 0 0x7FF0000000000001 0 8) =
    some (0b0000#4, [.response (.done)], [0x7F, 0xF0, 0x00, 0x00, 0x00, 0x00, 0x00, 0x01]) := by decide

/-- 95_test_vectors.md section 2.3: `WR.F64.LE`. -/
theorem test_wrF64Le :
    after 8 (given (filler 8) 0x2B 0 0x400921FB54442D18 0 8) =
    some (0b0000#4, [.response (.done)], [0x18, 0x2D, 0x44, 0x54, 0xFB, 0x21, 0x09, 0x40]) := by decide

/-- 95_test_vectors.md section 2.3, LEN = 7: `WR.F64.LE`. -/
theorem test_wrF64Le_edge :
    after 8 (given (filler 8) 0x2B 0 0x400921FB54442D18 0 7) =
    some (0b1001#4, [.response (.fault .shortBuf)], (filler 8)) := by decide

/-- 95_test_vectors.md section 2.3, pi in 3 bytes: `RD.FLOAT.BE`. -/
theorem test_rdFloatBe :
    result (given [0x40, 0x09, 0x21, 0xFB, 0x54, 0x44, 0x2D, 0x18] 0x68 3 0 0 3) =
    some (0b0000#4, 0x4009210000000000#128) := by decide

/-- 95_test_vectors.md section 2.3, the low byte is not read: `RD.FLOAT.BE`. -/
theorem test_rdFloatBe_edge :
    result (given [0xFF, 0xF0, 0x00, 0x00, 0x00, 0x00, 0x00, 0x01] 0x68 7 0 0 8) =
    some (0b0000#4, 0xFFF0000000000000#128) := by decide

/-- 95_test_vectors.md section 2.3, a signaling NaN in 2 bytes: `RD.FLOAT.LE`. -/
theorem test_rdFloatLe :
    result (given [0xF4, 0x7F] 0x69 2 0 0 2) =
    some (0b0000#4, 0x7FFC000000000000#128) := by decide

/-- 95_test_vectors.md section 2.3: `RD.FLOAT.LE`. -/
theorem test_rdFloatLe_edge :
    result (given [0x3F, 0xF0] 0x69 2 0 0 2) =
    some (0b0000#4, 0xF03F000000000000#128) := by decide

/-! ### The helpers of the spec, by its own tables -/

/-- 95_test_vectors.md section 2.2: both ladders, at the ends of every rung the table gives. -/
theorem test_packSize :
    [0x0, 0xFF, 0x100, 0xFFFF, 0x10000, 0xFFFFFF, 0x1000000, 0xFFFFFFFF, 0x100000000, 0xFFFFFFFFFF, 0x10000000000,
      0xFFFFFFFFFFFF, 0x1000000000000, 0xFFFFFFFFFFFFFF, 0x100000000000000, 0xFFFFFFFFFFFFFFFF].map packSize =
      [1, 1, 2, 2, 3, 3, 4, 4, 5, 5, 6, 6, 7, 7, 8, 8] ∧
    [0, 2 ^ 64 - 1, 2 ^ 64, 2 ^ 72 - 1, 2 ^ 72, 2 ^ 120 - 1, 2 ^ 120, 2 ^ 128 - 1].map packSize128 =
      [1, 8, 9, 9, 10, 15, 16, 16] := by decide

/-- 95_test_vectors.md section 2.3, the table of Canon32. -/
theorem test_canon32 :
    ([(0x00000000#32, 0x00000000#32), (0x80000000#32, 0x80000000#32), (0x00400000#32, 0x00400000#32),
      (0x7F7FFFFF#32, 0x7F7FFFFF#32), (0x7F800000#32, 0x7F800000#32), (0xFF800000#32, 0xFF800000#32),
      (0x7F800001#32, 0x7FC00001#32), (0xFF800001#32, 0xFFC00001#32), (0x7FBFFFFF#32, 0x7FFFFFFF#32),
      (0x7FA00000#32, 0x7FE00000#32), (0x7FC00000#32, 0x7FC00000#32), (0xFFFFFFFF#32, 0xFFFFFFFF#32)]).all
      (fun r => canon32 r.1 == r.2) = true := by decide

/-- 95_test_vectors.md section 2.3, the table of Canon64. -/
theorem test_canon64 :
    ([(0x0000000000000000#64, 0x0000000000000000#64), (0x3FF0000000000000#64, 0x3FF0000000000000#64),
      (0x0008000000000000#64, 0x0008000000000000#64), (0x7FEFFFFFFFFFFFFF#64, 0x7FEFFFFFFFFFFFFF#64),
      (0x7FF0000000000000#64, 0x7FF0000000000000#64), (0x7FF0000000000001#64, 0x7FF8000000000001#64),
      (0xFFF0000000000001#64, 0xFFF8000000000001#64), (0x7FF7FFFFFFFFFFFF#64, 0x7FFFFFFFFFFFFFFF#64),
      (0x7FF4000000000000#64, 0x7FFC000000000000#64), (0x7FF8000000000001#64, 0x7FF8000000000001#64),
      (0xFFFFFFFFFFFFFFFF#64, 0xFFFFFFFFFFFFFFFF#64)]).all (fun r => canon64 r.1 == r.2) = true := by decide

/-! ### Faults, the halted state, the host's moves -/

/-- 95_test_vectors.md section 2.4: ILLEGAL_CMD wins over NBYTES_RANGE and SHORT_BUF. -/
theorem test_illegal_first : after 2 (given [0x12, 0x34] 0x6A 0 0 0 0) =
    some (0b0011#4, [.response (.fault .illegalCmd)], [0x12, 0x34]) := by decide

/-- 95_test_vectors.md section 2.4, steps 3 and 4: in the halted state a legal and an illegal command get no response, and
CAUSE is not overwritten. -/
theorem test_halted_ignores :
    after 2 { given [0x12, 0x34] 0x02 0 0xFFFF 0 2 with status := 0b1001#4 } = some (0b1001#4, [], [0x12, 0x34]) ∧
    after 2 { given [0x12, 0x34] 0xFF 0 0 0 2 with status := 0b1001#4 } = some (0b1001#4, [], [0x12, 0x34]) := by
  decide

/-- 95_test_vectors.md section 2.4, step 5: reset clears STATUS and leaves BUFMEM. -/
theorem test_reset_move :
    after 2 { given [0x12, 0x34] 0 0 0 0 0 with status := 0b1001#4, pending := [.reset] } =
      some (0b0000#4, [], [0x12, 0x34]) := by decide

/-- 70_reset_and_hazards.md R216, in the halted state: the host reads STATUS, reads a byte, writes a byte. -/
theorem test_host_moves :
    after 2 { given [0x12, 0x34] 0 0 0 0 0 with status := 0b1001#4, pending := [.readStatus] } =
      some (0b1001#4, [.status 0b1001#4], [0x12, 0x34]) ∧
    after 2 { given [0x12, 0x34] 0 0 0 0 0 with status := 0b1001#4, pending := [.readByte 1] } =
      some (0b1001#4, [.byte 0x34], [0x12, 0x34]) ∧
    after 2 { given [0x12, 0x34] 0 0 0 0 0 with status := 0b1001#4, pending := [.writeByte 0 0x56] } =
      some (0b1001#4, [], [0x56, 0x34]) := by decide

/-- 20_memory.md R47: a legal command whose window ends after BUFMEM is refused, although its own bytes lie inside. -/
theorem test_window_refused : stopsWith (given [] 0x00 0 0 30 3) = some (.inr .windowOutsideBufmem) ∧
    stopsWith (given [] 0x00 0 0 30 2) = none := by decide

/-- 10_state.md R28: the host's address one past BUFMEM is refused. -/
theorem test_host_address_refused :
    stopsWith { given [] 0 0 0 0 0 with pending := [.readByte 32] } = some (.inr .addressOutsideBufmem) ∧
    stopsWith { given [] 0 0 0 0 0 with pending := [.writeByte 32 1] } = some (.inr .addressOutsideBufmem) := by decide

/-- The fixed name withFetchWord: the table word 0x02 (`WR.U16.BE`, LEN = 16, VAL = 0) runs as the first command after reset. -/
theorem test_withFetchWord : after 2 (State.reset.withFetchWord 8 0x02) = some (0b0000#4, [.response .done], [0, 0]) ∧
    result (State.reset.withFetchWord 8 0x48) = some (0b0000#4, 0#128) := by decide

/-- A write that puts back what an unlisted byte reads as removes the entry, so that equal memories are equal data. -/
theorem test_memory_canonical : Memory.write [(3, 5#8), (7, 1#8)] 3 0#8 = [(7, 1#8)] ∧
    Memory.wf [(3, 5#8), (7, 0#8)] = false ∧ Memory.wf [(7, 1#8), (3, 5#8)] = false := by decide

/-- 60_exceptions.md R181, 10_state.md R26: STATUS of cause 4 is 0b1001; cause 5 and a cause without HALTED are no legal
STATUS. -/
theorem test_status : statusOfFault .shortBuf = 0b1001#4 ∧ statusLegal 0b1001#4 = true ∧ statusLegal 0b1011#4 = false ∧
    statusLegal 0b0010#4 = false ∧ statusLegal 0b0001#4 = false := by decide

/-- The run of an empty command list has already ended well: the model's choice (assumption log 16), on which
70_reset_and_hazards.md R217 is silent. It has not ended badly, and has no results. -/
theorem test_launch : (launch 32 [] []).goodEnd = true ∧ (launch 32 [] []).badEnd = false ∧ (launch 32 [] []).results = [] := by
  decide

/-! ### The assembler (30_encoding.md R71), on lines of 95_test_vectors.md -/

/-- `WR.INT.BE [0, 8], -129, 1` is the byte 0x5A with VAL[63:0] = 0xFFFFFFFFFFFFFF7F (section 2.2). -/
theorem test_assemble_write :
    assemble .be ['W', 'R', '.', 'I', 'N', 'T', '.', 'B', 'E', ' ', '[', '0', ',', ' ', '8', ']', ',', ' ', '-', '1', '2', '9',
      ',', ' ', '1'] = some { cmd := 0x5A, nb := 1, val := 0xFFFFFFFFFFFFFF7F, base := 0, len := 8 } := by decide

/-- `RD.U16.BE [2, 2]` (E6), and the same with a missing bracket, which is no line. -/
theorem test_assemble_read :
    assemble .le ['R', 'D', '.', 'U', '1', '6', '.', 'B', 'E', ' ', '[', '2', ',', ' ', '2', ']'] =
      some { cmd := 0x00, nb := 0, val := 0, base := 2, len := 2 } ∧
    assemble .le ['R', 'D', '.', 'U', '1', '6', '.', 'B', 'E', ' ', '2', ',', ' ', '2', ']'] = none := by decide

/-- 43_ordering_selection.md R172, R173: `.NET` is big-endian, `.NE` is NATIVE_ORDER. -/
theorem test_assemble_pseudo :
    mnemonicText .le ['R', 'D', '.', 'U', '3', '2', '.', 'N', 'E', 'T'] = some .rdU32Be ∧
    mnemonicText .le ['R', 'D', '.', 'U', '3', '2', '.', 'N', 'E'] = some .rdU32Le ∧
    mnemonicText .be ['R', 'D', '.', 'U', '3', '2', '.', 'N', 'E'] = some .rdU32Be ∧
    mnemonicText .be ['W', 'R', '.', 'F', 'L', 'O', 'A', 'T', '.', 'B', 'E'] = none := by decide

/-! ### Two instances (60_exceptions.md R196) -/

/-- A write of bytes 0 and 1. -/
def writeLow : Request := { cmd := 0x02, nb := 0, val := 0x1234, base := 0, len := 2 }

/-- A read of bytes 1 and 2, which overlaps it, and one of bytes 2 and 3, which does not. -/
def readAt (base : Fin 4294967296) : Request := { cmd := 0x00, nb := 0, val := 0, base := base, len := 2 }

/-- The overlapping pair conflicts, the other does not, and two overlapping reads do not. -/
theorem test_conflicts :
    conflicting (accessRange writeLow (given counting 0 0 0 0 0)) (accessRange (readAt 1) (given counting 0 0 0 0 0)) = true ∧
    conflicting (accessRange writeLow (given counting 0 0 0 0 0)) (accessRange (readAt 2) (given counting 0 0 0 0 0)) = false ∧
    conflicting (accessRange (readAt 1) (given counting 0 0 0 0 0)) (accessRange (readAt 1) (given counting 0 0 0 0 0)) =
      false := by decide

/-- The disjoint pair runs: the write has landed in the BUFMEM both end with, and the read has its bytes; the overlapping pair
is refused (60_exceptions.md R196). -/
theorem test_presentTogether :
    (match presentTogether writeLow (readAt 2) (given counting 0 0 0 0 0) (given counting 0 0 0 0 0) with
      | .next p => p.1.bufmem == p.2.bufmem && p.1.bufmem.readBytes 0 2 == [0x12, 0x34] &&
          p.2.answers == [.response (.doneRes 0x304)]
      | .fault _ => false
      | .refused _ => false) = true ∧
    (match presentTogether writeLow (readAt 1) (given counting 0 0 0 0 0) (given counting 0 0 0 0 0) with
      | .next _ => false
      | .fault _ => false
      | .refused r => r == .overlappingAccesses) = true := by decide

/-! ### Witnesses: for each statement with hypotheses, values that meet them, at the ends of their ranges -/

/-- A running block with a window of `len` bytes at address 0. -/
def window (nb : BitVec 8) (val : Value) (len : Fin 4294967297) : State := onPorts counting 0 nb val 0 len

/-- The window of `len` bytes at address 0 is accepted, whatever NB and VAL are. -/
theorem window_accepting {nb : BitVec 8} {val : Value} {len : Fin 4294967297} (h : len.val ≤ 32) :
    (window nb val len).accepting := ⟨(by decide : statusHalted 0#4 = false), by simpa [window, onPorts] using h⟩

/-- LEN = W completes and LEN = W - 1 faults, at each of the four widths: the hypotheses of readsAs and writesAs. -/
theorem witness_fixed_width :
    ((window 0 0 2).accepting ∧ 2 ≤ (window 0 0 2).ports.len.val) ∧ ((window 0 0 1).accepting ∧ (window 0 0 1).ports.len.val < 2) ∧
    ((window 0 0 4).accepting ∧ 4 ≤ (window 0 0 4).ports.len.val) ∧ ((window 0 0 3).accepting ∧ (window 0 0 3).ports.len.val < 4) ∧
    ((window 0 0 8).accepting ∧ 8 ≤ (window 0 0 8).ports.len.val) ∧ ((window 0 0 7).accepting ∧ (window 0 0 7).ports.len.val < 8) ∧
    ((window 0 0 16).accepting ∧ 16 ≤ (window 0 0 16).ports.len.val) ∧
    ((window 0 0 15).accepting ∧ (window 0 0 15).ports.len.val < 16) ∧ (window 0 0 2).bufmem.wf = true := by
  decide

/-- The hypotheses of FixedUnsignedReadsReturnTheNumber. -/
theorem witness_FixedUnsignedReadsReturnTheNumber :
    ((window 0 0 2).accepting ∧ 2 ≤ (window 0 0 2).ports.len.val) ∧ ((window 0 0 15).accepting ∧ (window 0 0 15).ports.len.val < 16) :=
  ⟨witness_fixed_width.1, witness_fixed_width.2.2.2.2.2.2.2.1⟩

/-- The hypotheses of FixedSignedReadsReturnThePattern. -/
theorem witness_FixedSignedReadsReturnThePattern :
    ((window 0 0 4).accepting ∧ 4 ≤ (window 0 0 4).ports.len.val) ∧ ((window 0 0 3).accepting ∧ (window 0 0 3).ports.len.val < 4) :=
  ⟨witness_fixed_width.2.2.1, witness_fixed_width.2.2.2.1⟩

/-- The hypotheses of FloatReadsQuietSignalingNaNs. -/
theorem witness_FloatReadsQuietSignalingNaNs :
    ((window 0 0 8).accepting ∧ 8 ≤ (window 0 0 8).ports.len.val) ∧ ((window 0 0 7).accepting ∧ (window 0 0 7).ports.len.val < 8) :=
  ⟨witness_fixed_width.2.2.2.2.1, witness_fixed_width.2.2.2.2.2.1⟩

/-- The hypotheses of FixedUnsignedWritesStoreTheBytes. -/
theorem witness_FixedUnsignedWritesStoreTheBytes :
    ((window 0 0 16).accepting ∧ (window 0 0 16).bufmem.wf = true ∧ 16 ≤ (window 0 0 16).ports.len.val) ∧
    ((window 0 0 1).accepting ∧ (window 0 0 1).bufmem.wf = true ∧ (window 0 0 1).ports.len.val < 2) := by decide

/-- The hypotheses of FixedSignedWritesStoreTheBytes. -/
theorem witness_FixedSignedWritesStoreTheBytes :
    ((window 0 0x8000 2).accepting ∧ (window 0 0x8000 2).bufmem.wf = true ∧ 2 ≤ (window 0 0x8000 2).ports.len.val) ∧
    ((window 0 0x8000 15).accepting ∧ (window 0 0x8000 15).bufmem.wf = true ∧ (window 0 0x8000 15).ports.len.val < 16) := by
  decide

/-- The hypotheses of FloatWritesStoreTheBytes. -/
theorem witness_FloatWritesStoreTheBytes :
    ((window 0 0xFF800001 4).accepting ∧ (window 0 0xFF800001 4).bufmem.wf = true ∧ 4 ≤ (window 0 0xFF800001 4).ports.len.val) ∧
    ((window 0 0 7).accepting ∧ (window 0 0 7).bufmem.wf = true ∧ (window 0 0 7).ports.len.val < 8) := by decide

/-- The clauses of nbyteReadsAs for a container of `c` bytes, at NB = 1, C, 0, C + 1, and LEN = NB, NB - 1. -/
def nbyteReadClauses (c : Nat) (small large short zero above : State) : Prop :=
  (small.accepting ∧ small.ports.nb.toNat = 1 ∧ 1 ≤ c ∧ small.ports.nb.toNat ≤ small.ports.len.val) ∧
  (large.accepting ∧ large.ports.nb.toNat = c ∧ large.ports.nb.toNat ≤ large.ports.len.val) ∧
  (short.accepting ∧ 1 ≤ short.ports.nb.toNat ∧ short.ports.nb.toNat ≤ c ∧ short.ports.len.val < short.ports.nb.toNat) ∧
  (zero.accepting ∧ zero.ports.nb.toNat < 1) ∧ (above.accepting ∧ c < above.ports.nb.toNat)

/-- The clauses of nbyteReadsAs on the 64-bit container. -/
theorem witness_nbyte_reads : nbyteReadClauses 8 (window 1 0 1) (window 8 0 8) (window 8 0 7) (window 0 0 8) (window 9 0 16) := by
  unfold nbyteReadClauses; decide

/-- The clauses of nbyteReadsAs on the 128-bit container. -/
theorem witness_nbyte128_reads :
    nbyteReadClauses 16 (window 1 0 1) (window 16 0 16) (window 16 0 15) (window 0 0 16) (window 17 0 32) := by
  unfold nbyteReadClauses; decide

/-- The hypotheses of NbyteUnsignedReadsZeroExtend. -/
theorem witness_NbyteUnsignedReadsZeroExtend :
    nbyteReadClauses 8 (window 1 0 1) (window 8 0 8) (window 8 0 7) (window 0 0 8) (window 9 0 16) := witness_nbyte_reads

/-- The hypotheses of NbyteSignedReadsSignExtend. -/
theorem witness_NbyteSignedReadsSignExtend :
    nbyteReadClauses 8 (window 1 0 1) (window 8 0 8) (window 8 0 7) (window 0 0 8) (window 9 0 16) := witness_nbyte_reads

/-- The hypotheses of NbyteFloatReadsFillTheTopBytes. -/
theorem witness_NbyteFloatReadsFillTheTopBytes :
    nbyteReadClauses 8 (window 1 0 1) (window 8 0 8) (window 8 0 7) (window 0 0 8) (window 9 0 16) := witness_nbyte_reads

/-- The hypotheses of Nbyte128UnsignedReadsZeroExtend. -/
theorem witness_Nbyte128UnsignedReadsZeroExtend :
    nbyteReadClauses 16 (window 1 0 1) (window 16 0 16) (window 16 0 15) (window 0 0 16) (window 17 0 32) := witness_nbyte128_reads

/-- The hypotheses of Nbyte128SignedReadsSignExtend. -/
theorem witness_Nbyte128SignedReadsSignExtend :
    nbyteReadClauses 16 (window 1 0 1) (window 16 0 16) (window 16 0 15) (window 0 0 16) (window 17 0 32) := witness_nbyte128_reads

/-- The clauses of nbyteWritesAs: completing, NB = 0, NB > C, a value that does not fit, LEN < NB. -/
def nbyteWriteClauses (c : Nat) (fits : State → Prop) (good zero above wide short : State) : Prop :=
  (good.accepting ∧ good.bufmem.wf = true ∧ 1 ≤ good.ports.nb.toNat ∧ good.ports.nb.toNat ≤ c ∧ fits good ∧
    good.ports.nb.toNat ≤ good.ports.len.val) ∧
  (zero.accepting ∧ zero.bufmem.wf = true ∧ zero.ports.nb.toNat < 1) ∧
  (above.accepting ∧ above.bufmem.wf = true ∧ c < above.ports.nb.toNat) ∧
  (wide.accepting ∧ wide.bufmem.wf = true ∧ 1 ≤ wide.ports.nb.toNat ∧ wide.ports.nb.toNat ≤ c ∧ ¬ fits wide) ∧
  (short.accepting ∧ short.bufmem.wf = true ∧ 1 ≤ short.ports.nb.toNat ∧ short.ports.nb.toNat ≤ c ∧ fits short ∧
    short.ports.len.val < short.ports.nb.toNat)

/-- The hypotheses of NbyteUnsignedWritesCheckAndStore: 0xFF fits one byte, 0x100 does not. -/
theorem witness_NbyteUnsignedWritesCheckAndStore :
    nbyteWriteClauses 8 (fun s => unsignedFits 8 s.ports) (window 1 0xFF 1) (window 0 0 1) (window 9 0 16) (window 1 0x100 1)
      (window 8 0 7) := by unfold nbyteWriteClauses unsignedFits; decide

/-- The hypotheses of NbyteSignedWritesCheckAndStore: -128 fits one byte, 128 does not. -/
theorem witness_NbyteSignedWritesCheckAndStore :
    nbyteWriteClauses 8 (fun s => signedFits 8 s.ports) (window 1 0xFFFFFFFFFFFFFF80 1) (window 0 0 1) (window 9 0 16)
      (window 1 0x80 1) (window 8 0 7) := by unfold nbyteWriteClauses signedFits; decide

/-- The hypotheses of Nbyte128UnsignedWritesCheckAndStore: 2^72 - 1 fits nine bytes, 2^72 does not. -/
theorem witness_Nbyte128UnsignedWritesCheckAndStore :
    nbyteWriteClauses 16 (fun s => unsignedFits 16 s.ports) (window 9 0xFFFFFFFFFFFFFFFFFF 9) (window 0 0 1) (window 17 0 32)
      (window 9 0x1000000000000000000 9) (window 16 0 15) := by unfold nbyteWriteClauses unsignedFits; decide

/-- The hypotheses of Nbyte128SignedWritesCheckAndStore: -2^87 fits eleven bytes, 2^87 does not. -/
theorem witness_Nbyte128SignedWritesCheckAndStore :
    nbyteWriteClauses 16 (fun s => signedFits 16 s.ports) (window 11 0xFFFFFFFFFF8000000000000000000000 11) (window 0 0 1)
      (window 17 0 32) (window 11 0x8000000000000000000000 11) (window 16 0 15) := by
  unfold nbyteWriteClauses signedFits; decide

/-- The index of UnpackListsTheLowBytes, first and last. -/
theorem witness_UnpackListsTheLowBytes : 0 < 16 ∧ 15 < 16 ∧
    ((unpack .be 16 0x0102).getD 15 0#8).toNat = 2 ∧ ((unpack .le 16 0x0102).getD 0 0#8).toNat = 2 := by decide

/-- The rungs of PackSizeIsTheLeastByteCount at both ends of both ladders. -/
theorem witness_PackSizeIsTheLeastByteCount :
    (1 ≤ 1 ∧ 1 ≤ 7 ∧ packSize 0xFF = 1) ∧ (1 ≤ 7 ∧ 7 ≤ 7 ∧ packSize (2 ^ 56 - 1) = 7) ∧ (packSize (2 ^ 56) = 8) ∧
    (1 ≤ 15 ∧ 15 ≤ 15 ∧ packSize128 (2 ^ 120 - 1) = 15) ∧ packSize128 (2 ^ 120) = 16 := by decide

/-- NB = 1 and NB = C, and a bit below and one above 8 NB, of ExtendSignCopiesTheSignBit. -/
theorem witness_ExtendSignCopiesTheSignBit :
    (1 ≤ 1 ∧ 1 ≤ 8 ∧ 7 < 8 * 8 ∧ 63 < 8 * 8) ∧ extendSign 8 0x80#64 1 = 0xFFFFFFFFFFFFFF80#64 ∧
    extendSign 8 0x80#64 8 = 0x80#64 := by decide

/-- NB = 1 and NB = C of SignedFitIsTheSignedRange, with a value that fits and one that does not. -/
theorem witness_SignedFitIsTheSignedRange :
    (1 ≤ 1 ∧ 1 ≤ 8 ∧ 8 ≤ 8) ∧ fitsSigned 8 0xFFFFFFFFFFFFFF80#64 1 = true ∧ fitsSigned 8 0x80#64 1 = false ∧
    fitsSigned 8 0x8000000000000000#64 8 = true := by decide

/-- A quiet NaN, a pattern with another exponent, and an infinity, of CanonicalizerLaws. -/
theorem witness_CanonicalizerLaws :
    (0x7FC00000#32).getLsbD 22 = true ∧ (0x7F7FFFFF#32).extractLsb' 23 8 ≠ 0xFF#8 ∧ (0x7F800000#32).extractLsb' 0 23 = 0#23 ∧
    (0x7FF8000000000000#64).getLsbD 51 = true ∧ (0x7FEFFFFFFFFFFFFF#64).extractLsb' 52 11 ≠ 0x7FF#11 ∧
    (0x7FF0000000000000#64).extractLsb' 0 52 = 0#52 := by decide

/-- The pair of tuples of SignedFixedCommandsAreTheUnsignedOnes. -/
theorem witness_SignedFixedCommandsAreTheUnsignedOnes :
    instrOfFields .u .w16 .rd .be = .ok .rdU16Be ∧ instrOfFields .i .w16 .rd .be = .ok .rdI16Be := ⟨rfl, rfl⟩

/-- A write and a read of the other ordering, LEN = W, of FixedWidthRoundTrip. -/
theorem witness_FixedWidthRoundTrip :
    fixedKind .u ∧ fixedKind .i ∧ instrOfFields .u .w64 .wr .le = .ok .wrU64Le ∧ instrOfFields .i .w64 .rd .be = .ok .rdI64Be ∧
    (window 0 0x0123456789ABCDEF 8).accepting ∧ (window 0 0x0123456789ABCDEF 8).bufmem.wf = true ∧
    widthSelBits .w64 / 8 ≤ (window 0 0x0123456789ABCDEF 8).ports.len.val :=
  ⟨.inl rfl, .inr rfl, rfl, rfl, window_accepting (by decide), by decide, by decide⟩

/-- -2 written in five bytes, of NbyteRoundTrip. -/
theorem witness_NbyteRoundTrip :
    nbyteKind .int ∧ instrOfFields .int .w64 .wr .le = .ok .wrIntLe ∧ instrOfFields .int .w64 .rd .le = .ok .rdIntLe ∧
    (window 5 0xFFFFFFFFFFFFFFFE 5).accepting ∧ (window 5 0xFFFFFFFFFFFFFFFE 5).bufmem.wf = true ∧
    ∃ t, exec .wrIntLe (window 5 0xFFFFFFFFFFFFFFFE 5) = .next t ∧ t.halted = false :=
  ⟨.inr rfl, rfl, rfl, window_accepting (by decide), by decide, _, rfl, by decide⟩

/-- NB = 8, 16, 2 and 4, of NbyteCommandsAtFullWidth. -/
theorem witness_NbyteCommandsAtFullWidth :
    (window 8 0 8).ports.nb = 8#8 ∧ (window 16 0 16).ports.nb = 16#8 ∧ (window 2 0 2).ports.nb = 2#8 ∧
    (window 4 0 4).ports.nb = 4#8 := ⟨rfl, rfl, rfl, rfl⟩

/-- The clauses of FloatCommandsByOtherCommands: windows of 4 and 8 bytes, reads that complete, and for RD.FLOAT slices that
agree, in both orderings. -/
theorem witness_FloatCommandsByOtherCommands :
    ((window 0 0xFF800001 4).accepting ∧ (window 0 0xFF800001 4).bufmem.wf = true ∧ 4 ≤ (window 0 0xFF800001 4).ports.len.val) ∧
    ((window 0 0 8).accepting ∧ 8 ≤ (window 0 0 8).ports.len.val) ∧
    (∃ v, exec .rdU32Be (window 0 0 4) = .next (withResult (window 0 0 4) v)) ∧
    (∃ v, exec .rdU32Le (window 0 0 4) = .next (withResult (window 0 0 4) v)) ∧
    (∃ v, exec .rdU64Be (window 0 0 8) = .next (withResult (window 0 0 8) v)) ∧
    (∃ v, exec .rdU64Le (window 0 0 8) = .next (withResult (window 0 0 8) v)) ∧
    (exec .rdU32Be (window 0 0 3) = .next (faulted (window 0 0 3) .shortBuf) ∧
      exec .rdU32Le (window 0 0 3) = .next (faulted (window 0 0 3) .shortBuf) ∧
      exec .rdU64Be (window 0 0 7) = .next (faulted (window 0 0 7) .shortBuf) ∧
      exec .rdU64Le (window 0 0 7) = .next (faulted (window 0 0 7) .shortBuf)) ∧
    ((onPorts [0x40, 0x09] 0x68 2 0 0 2).accepting ∧ (onPorts [0x40, 0x09] 0x28 0 0 0 8).accepting ∧
      ∀ k, k < 8 → (onPorts [0x40, 0x09] 0x28 0 0 0 8).slice k =
        if k < (onPorts [0x40, 0x09] 0x68 2 0 0 2).ports.nb.toNat then (onPorts [0x40, 0x09] 0x68 2 0 0 2).slice k else 0#8) ∧
    (∀ k, k < 8 → (onPorts [0, 0, 0, 0, 0, 0, 0x09, 0x40] 0x29 0 0 0 8).slice k =
        if k < 8 - (onPorts [0x09, 0x40] 0x69 2 0 0 2).ports.nb.toNat then 0#8
        else (onPorts [0x09, 0x40] 0x69 2 0 0 2).slice (k - (8 - (onPorts [0x09, 0x40] 0x69 2 0 0 2).ports.nb.toNat))) :=
  ⟨⟨window_accepting (by decide), by decide, by decide⟩, ⟨window_accepting (by decide), by decide⟩, ⟨_, rfl⟩, ⟨_, rfl⟩,
    ⟨_, rfl⟩, ⟨_, rfl⟩, ⟨rfl, rfl, rfl, rfl⟩, by decide, by decide⟩

/-- A two-byte slice and its reversal, of OrderingsDifferOnlyInTheLaneMap. -/
theorem witness_OrderingsDifferOnlyInTheLaneMap :
    instrOfFields .u .w16 .rd .be = .ok .rdU16Be ∧ instrOfFields .u .w16 .rd .le = .ok .rdU16Le ∧
    onPorts [2, 1] 0 0 0 0 2 = { onPorts [1, 2] 0 0 0 0 2 with bufmem := (onPorts [2, 1] 0 0 0 0 2).bufmem } ∧
    (onPorts [1, 2] 0 0 0 0 2).bufmem.wf = true ∧ (onPorts [2, 1] 0 0 0 0 2).bufmem.wf = true ∧
    (∀ j, j < Instr.accessWidth .rdU16Be 0 →
      (onPorts [2, 1] 0 0 0 0 2).slice j = (onPorts [1, 2] 0 0 0 0 2).slice (Instr.accessWidth .rdU16Be 0 - 1 - j)) ∧
    ∃ t, exec .rdU16Le (onPorts [1, 2] 0 0 0 0 2) = .next t :=
  ⟨rfl, rfl, rfl, by decide, by decide, by decide, _, rfl⟩

/-- Two blocks that differ in a byte after the slice and in what they have answered, of StatelessnessLaw. -/
theorem witness_StatelessnessLaw :
    (onPorts [1, 2, 3] 0 0 0 0 2).accepting ∧
    ({ onPorts [1, 2, 4] 0 0 0 0 2 with answers := [.byte 7], bufsz := 64 } : State).accepting ∧
    (onPorts [1, 2, 3] 0 0 0 0 2).bufmem.wf = true ∧ (onPorts [1, 2, 4] 0 0 0 0 2).bufmem.wf = true ∧
    (onPorts [1, 2, 3] 0 0 0 0 2).ports = (onPorts [1, 2, 4] 0 0 0 0 2).ports ∧
    ∀ k, k < Instr.accessWidth .rdU16Be 0 → (onPorts [1, 2, 3] 0 0 0 0 2).slice k = (onPorts [1, 2, 4] 0 0 0 0 2).slice k := by
  decide

/-- A write whose VAL differs above bit 15 and whose NB differs, of UnusedPortBitsAreIgnored. -/
theorem witness_UnusedPortBitsAreIgnored :
    (Instr.usesNb .wrU16Be = true → (200 : BitVec 8) = (window 0 0x1234 2).ports.nb) ∧
    (Instr.isWrite .wrU16Be = true → (0xABCD1234 : Value).toNat % 2 ^ widthSelBits (Instr.fields .wrU16Be).2.1 =
      (window 0 0x1234 2).ports.val.toNat % 2 ^ widthSelBits (Instr.fields .wrU16Be).2.1) ∧
    (Instr.usesNb .wrUintBe = true → (3 : BitVec 8) = (window 3 0x1234 3).ports.nb) := by decide

/-- A running block whose window ends exactly with BUFMEM, of EveryCommandAnswersOnce. -/
theorem witness_EveryCommandAnswersOnce : (onPorts [] 0 0 0 16 16).accepting := by decide

/-- A write, an illegal byte and a fault, of CommandsTouchOnlyTheirOwnBytes. -/
theorem witness_CommandsTouchOnlyTheirOwnBytes :
    (∃ t, (given counting 0x02 0 0xABCD 4 2).bufmem.wf = true ∧ step (given counting 0x02 0 0xABCD 4 2) = .next t) ∧
    (∃ t e, decode 0x6A#8 = .error e ∧ step (given counting 0x6A 0 0 0 0) = .next t) ∧
    (∃ t, step (given counting 0x02 0 0 4 1) = .next t ∧ t.halted = true) :=
  ⟨⟨_, by decide, rfl⟩, ⟨_, _, rfl, rfl⟩, ⟨_, rfl, by decide⟩⟩

/-- A window one byte too long, of WindowOutsideBufmemIsRefused. -/
theorem witness_WindowOutsideBufmemIsRefused :
    (onPorts [] 0 0 0 31 2).halted = false ∧ (onPorts [] 0 0 0 31 2).bufsz <
      (onPorts [] 0 0 0 31 2).ports.base.val + (onPorts [] 0 0 0 31 2).ports.len.val := by decide

/-- A command that answers each of the three faults a legal command can raise, of FaultEntryIsTheWholeEffect. -/
theorem witness_FaultEntryIsTheWholeEffect :
    (∃ t, exec .rdU16Be (window 0 0 1) = .next t ∧ t.answers = (window 0 0 1).answers ++ [.response (.fault .shortBuf)]) ∧
    (∃ t, exec .rdUintBe (window 0 0 1) = .next t ∧ t.answers = (window 0 0 1).answers ++ [.response (.fault .nbytesRange)]) ∧
    (∃ t, exec .wrUintBe (window 1 0x100 1) = .next t ∧
      t.answers = (window 1 0x100 1).answers ++ [.response (.fault .valueRange)]) :=
  ⟨⟨_, rfl, by decide⟩, ⟨_, rfl, by decide⟩, ⟨_, rfl, by decide⟩⟩

/-- A request for each result of firstFault, of FirstFailingCheckIsReported. -/
theorem witness_FirstFailingCheckIsReported :
    (given [] 0x6A 0 0 0 0).halted = false ∧ 0 + 0 ≤ (given [] 0x6A 0 0 0 0).bufsz ∧
    firstFault { cmd := 0x6A, nb := 0, val := 0, base := 0, len := 0 } = some .illegalCmd ∧
    firstFault { cmd := 0x4A, nb := 0, val := 0x100, base := 0, len := 0 } = some .nbytesRange ∧
    firstFault { cmd := 0x4A, nb := 1, val := 0x100, base := 0, len := 0 } = some .valueRange ∧
    firstFault { cmd := 0x5B, nb := 1, val := 0xFFFFFFFFFFFFFF7F, base := 0, len := 0 } = some .valueRange ∧
    firstFault { cmd := 0x4A, nb := 1, val := 0xFF, base := 0, len := 0 } = some .shortBuf ∧
    firstFault { cmd := 0x4A, nb := 1, val := 0xFF, base := 0, len := 1 } = none := by
  have hi : decode 0x6A#8 = .error .noFloatWrite := rfl
  have hu : decode 0x4A#8 = .ok .wrUintBe := rfl
  have hs : decode 0x5B#8 = .ok .wrIntLe := rfl
  refine ⟨by decide, by decide, ?_, ?_, ?_, ?_, ?_, ?_⟩
  · simp [firstFault, hi]
  · simp [firstFault, hu, Instr.usesNb, Instr.fields, containerBytes, widthSelBits]
  · simp [firstFault, hu, Instr.usesNb, Instr.isWrite, Instr.fields, containerBytes, widthSelBits, unsignedFits]
  · simp [firstFault, hs, Instr.usesNb, Instr.isWrite, Instr.fields, containerBytes, widthSelBits, signedFits]
  · simp [firstFault, hu, Instr.usesNb, Instr.isWrite, Instr.fields, Instr.accessWidth, containerBytes, widthSelBits,
      unsignedFits]
  · simp [firstFault, hu, Instr.usesNb, Instr.isWrite, Instr.fields, Instr.accessWidth, containerBytes, widthSelBits,
      unsignedFits]

/-- An illegal byte with a window outside BUFMEM, of IllegalBytesFaultFirst. -/
theorem witness_IllegalBytesFaultFirst :
    (given [] 0x6A 0 0 31 2).halted = false ∧ (0x6A#8).toNat ∉ legalBytes ∧ (0x80#8).toNat ∉ legalBytes ∧
    (0x20#8).toNat ∉ legalBytes := by decide

/-- A halted block, the last address of BUFMEM, and a step that changes STATUS, of HaltedBlockExecutesNothing. -/
theorem witness_HaltedBlockExecutesNothing :
    ({ given [] 0 0 0 0 0 with status := 0b1001#4 } : State).halted = true ∧ 31 < (given [] 0 0 0 0 0).bufsz ∧
    ∃ t, step { given [] 0 0 0 0 0 with status := 0b1001#4, pending := [.reset] } = .next t ∧ t.status ≠ 0b1001#4 :=
  ⟨by decide, by decide, _, rfl, by decide⟩

/-- The reset move in a halted block with a legal command to come, of ResetMoveClearsStatusOnly. -/
theorem witness_ResetMoveClearsStatusOnly :
    ({ given [] 0 0 0 0 2 with status := 0b1001#4, pending := .reset :: (given [] 0 0 0 0 2).pending } : State).pending =
      .reset :: (given [] 0 0 0 0 2).pending ∧ decode 0#8 = .ok .rdU16Be := ⟨rfl, rfl⟩

/-- A step that faults, one that resets and one that reads STATUS, of StatusIsWrittenByFaultAndResetOnly. -/
theorem witness_StatusIsWrittenByFaultAndResetOnly :
    (∃ t, step (given [] 0 0 0 0 1) = .next t ∧ t.status ≠ (given [] 0 0 0 0 1).status) ∧
    (∃ t, step { given [] 0 0 0 0 0 with status := 0b0011#4, pending := [.reset] } = .next t ∧ t.status ≠ 0b0011#4) ∧
    (∃ t, step { given [] 0 0 0 0 0 with pending := [.readStatus] } = .next t) ∧
    (given [] 0 0 0 0 1).status ∈ [0b0000#4, 0b0011#4, 0b0101#4, 0b0111#4, 0b1001#4] :=
  ⟨⟨_, rfl, by decide⟩, ⟨_, rfl, by decide⟩, ⟨_, rfl⟩, by decide⟩

/-- Commands of both settings of EXT128, of DecodeAndEncodeAgree. -/
theorem witness_DecodeAndEncodeAgree :
    Instr.wellFormed true .rdU128Be = true ∧ Instr.wellFormed false .rdU64Be = true ∧
    decodeWith true 0b00001100#8 = .ok .rdU128Be ∧ decodeWith false 0b00001000#8 = .ok .rdU64Be := ⟨rfl, rfl, rfl, rfl⟩

/-- A byte of each clause of WithoutExt128SixteenMoreBytesAreIllegal, at the ends. -/
theorem witness_WithoutExt128SixteenMoreBytesAreIllegal :
    (0x0C#8).toNat ∈ [0x0C, 0x0D, 0x0E, 0x0F, 0x1C, 0x1D, 0x1E, 0x1F, 0x4C, 0x4D, 0x4E, 0x4F, 0x5C, 0x5D, 0x5E, 0x5F] ∧
    (0x5F#8).toNat ∈ [0x0C, 0x0D, 0x0E, 0x0F, 0x1C, 0x1D, 0x1E, 0x1F, 0x4C, 0x4D, 0x4E, 0x4F, 0x5C, 0x5D, 0x5E, 0x5F] ∧
    (0x0B#8).toNat ∉ [0x0C, 0x0D, 0x0E, 0x0F, 0x1C, 0x1D, 0x1E, 0x1F, 0x4C, 0x4D, 0x4E, 0x4F, 0x5C, 0x5D, 0x5E, 0x5F] ∧
    (0x2C#8).toNat ∉ [0x0C, 0x0D, 0x0E, 0x0F, 0x1C, 0x1D, 0x1E, 0x1F, 0x4C, 0x4D, 0x4E, 0x4F, 0x5C, 0x5D, 0x5E, 0x5F] := by
  decide

/-- A running block with a legal command, and one with no move to come, of StepRunsTheDecodedCommand. -/
theorem witness_StepRunsTheDecodedCommand :
    (given [] 0x5B 1 0 0 1).pending = [.command { cmd := 0x5B, nb := 1, val := 0, base := 0, len := 1 }] ∧
    (given [] 0x5B 1 0 0 1).halted = false ∧ decode 0x5B#8 = .ok .wrIntLe ∧ State.reset.pending = [] :=
  ⟨rfl, by decide, rfl, rfl⟩

/-- The state after reset and a table word, of FetchWordRunsNext. -/
theorem witness_FetchWordRunsNext : State.reset.halted = false ∧ decodeTableWord 8 0x69 = some .rdFloatLe := by decide

/-- A state of the invariant with a step, of StepKeepsTheInvariant. -/
theorem witness_StepKeepsTheInvariant :
    (given counting 0x0E 0 1 16 16).wf = true ∧ ∃ t, step (given counting 0x0E 0 1 16 16) = .next t :=
  ⟨by decide, _, rfl⟩

/-- A step, of StepTakesOneHostMove. -/
theorem witness_StepTakesOneHostMove : ∃ t, step (given counting 0x0E 0 1 16 16) = .next t := ⟨_, rfl⟩

/-- The last address of BUFMEM and the first after it, for both moves, of HostReadsAndWritesBufmem. -/
theorem witness_HostReadsAndWritesBufmem :
    (given counting 0 0 0 0 0).bufmem.wf = true ∧ 31 < (given counting 0 0 0 0 0).bufsz ∧ (given counting 0 0 0 0 0).bufsz ≤ 32 ∧
    ({ given counting 0 0 0 0 0 with pending := [.readByte 31] } : State).pending = [.readByte 31] ∧
    ({ given counting 0 0 0 0 0 with pending := [.writeByte 31 9] } : State).pending = [.writeByte 31 9] := by decide

/-- A conflicting pair of commands and a pair that is not, which runs, of IndependentInstancesCommute. -/
theorem witness_IndependentInstancesCommute :
    (given counting 0 0 0 0 0).bufmem.wf = true ∧
    conflicting (accessRange writeLow (given counting 0 0 0 0 0)) (accessRange (readAt 1) (given counting 0 0 0 0 0)) = true ∧
    conflicting (accessRange writeLow (given counting 0 0 0 0 0)) (accessRange (readAt 2) (given counting 0 0 0 0 0)) = false ∧
    ∃ p, presentInTurn writeLow (readAt 2) (given counting 0 0 0 0 0) (given counting 0 0 0 0 0) = .next p :=
  ⟨by decide, test_conflicts.1, test_conflicts.2.1, _, rfl⟩

end Sys2Proof.Tests
end

