-- ==== Sys2Proof/Proofs/State.lean ====
section
/-! PROOFS. The statements of 10_state.md: what a command's response and bytes depend on (R30), and what writes STATUS
(R26). -/

namespace Sys2Proof

open Machine Claims

/-! ### The slice of a state after a command -/

section slice

variable {s s' : State} {w : Nat}

@[simp] theorem slice_raise (c : Cause) (k : Nat) : (s.raise c).slice k = s.slice k := rfl

@[simp] theorem slice_doneRes (v : Value) (k : Nat) : (s.doneRes v).slice k = s.slice k := rfl

@[simp] theorem slice_done (k : Nat) : s.done.slice k = s.slice k := rfl

/-- A byte inside a write at the start of the slice is the byte written. -/
theorem slice_memWrite_of_lt {bl : List Byte} {k : Nat} (hm : s.bufmem.wf = true) (hk : k < bl.length) :
    (s.memWrite 0 bl).slice k = bl.getD k 0#8 := by
  have hin : s.ports.base.val ≤ s.ports.base.val + k ∧ s.ports.base.val + k < s.ports.base.val + bl.length := by omega
  simp only [State.slice, memWrite_bufmem, memWrite_ports, Nat.add_zero, read_writeBytes bl _ _ hm, if_pos hin,
    Nat.add_sub_cancel_left]

/-- A read of the first `w` bytes of the slice depends on those bytes alone. -/
theorem memRead_congr (h : ∀ k, k < w → s.slice k = s'.slice k) : s.memRead 0 w = s'.memRead 0 w :=
  readBytes_congr w h

end slice

/-! ### What the request alone settles about one command -/

/-- The shape of a single command: for a fixed request it is one fault, one function of the bytes read, or one value
written, in every state that accepts it. -/
theorem exec_of_request (i : Instr) (p : Request) :
    (∃ c, ∀ s : State, s.accepting → s.ports = p → exec i s = .next (s.raise c)) ∨
    (∃ f : List Byte → Value, ∀ s : State, s.accepting → s.ports = p →
      exec i s = .next (s.doneRes (f (s.memRead 0 (i.accessWidth p.nb))))) ∨
    (∃ v, ∀ s : State, s.accepting → s.ports = p →
      exec i s = .next (s.memWrite 0 (unpack i.fields.2.2.2 (i.accessWidth p.nb) v)).done) := by
  obtain ⟨be, le, hb, hl, hi, hw, -⟩ := instr_ordered i
  have shape := exec_shape hb hl p
  rw [hw] at shape
  have he (s : State) : exec i s = exec (ordered be le i.fields.2.2.2) s := congrArg (exec · s) hi
  cases shape with
  | fault c h => exact .inl ⟨c, fun s hs hp => (he s).trans (h _ s hs hp)⟩
  | read _ _ f h =>
    exact .inr (.inl ⟨fun bl => f (pack i.fields.2.2.2 bl), fun s hs hp => (he s).trans (h _ s hs hp)⟩)
  | write _ _ v h => exact .inr (.inr ⟨v, fun s hs hp => (he s).trans (h _ s hs hp)⟩)

/-- Settles O30: the request fixes which of the three shapes the command has; a fault and a read leave the slice as it is,
a read sees only the bytes that agree, and a write stores the same bytes in both states. -/
theorem statelessnessLaw : Obligations.StatelessnessLaw := by
  intro i s s' hs hs' hm hm' hp hslice
  rcases exec_of_request i s.ports with ⟨c, h⟩ | ⟨f, h⟩ | ⟨v, h⟩
  case inl =>
    exact ⟨_, _, _, h s hs rfl, h s' hs' hp.symm, rfl, rfl, fun k hk => by simpa only [slice_raise] using hslice k hk⟩
  case inr.inl =>
    refine ⟨_, _, _, h s hs rfl, h s' hs' hp.symm, rfl, ?_, fun k hk => ?_⟩
    · rw [memRead_congr hslice, doneRes_answers]
    · simpa only [slice_doneRes] using hslice k hk
  case inr.inr =>
    refine ⟨_, _, _, h s hs rfl, h s' hs' hp.symm, rfl, rfl, fun k hk => ?_⟩
    rw [slice_done, slice_done, slice_memWrite_of_lt hm (by simpa using hk),
      slice_memWrite_of_lt hm' (by simpa using hk)]

/-! ### What writes STATUS -/

/-- STATUS after fault entry, as the word the rules of STATUS give (10_state.md R26). -/
theorem statusOfFault_eq_faultStatus (c : Cause) : statusOfFault c = faultStatus c := by cases c <;> rfl

/-- STATUS after fault entry is legal (10_state.md R26). -/
theorem faultStatus_legal (c : Cause) : faultStatus c ∈ [0b0000#4, 0b0011#4, 0b0101#4, 0b0111#4, 0b1001#4] := by
  cases c <;> decide

/-- A legal command leaves STATUS or answers a fault whose STATUS it enters. -/
theorem exec_status {i : Instr} {s t : State} (h : exec i s = .next t) :
    t.status = s.status ∨ ∃ c, t.status = faultStatus c ∧ t.answers = s.answers ++ [.response (.fault c)] := by
  obtain ⟨-, ends⟩ := exec_ends h
  cases ends with
  | fault c ht => subst ht; exact .inr ⟨c, statusOfFault_eq_faultStatus c, rfl⟩
  | read _ _ _ _ ht => subst ht; exact .inl rfl
  | write _ _ _ ht => subst ht; exact .inl rfl

/-- A step leaves STATUS, or is the reset move, or a command that faults in a running block. -/
theorem step_status {s t : State} (h : step s = .next t) :
    t.status = s.status ∨
    (∃ rest, s.pending = .reset :: rest ∧ t.status = 0#4) ∨
    (∃ r rest c, s.pending = .command r :: rest ∧ s.halted = false ∧ t.status = faultStatus c ∧
      t.answers = s.answers ++ [.response (.fault c)]) := by
  cases step_ends h with
  | idle _ ht | ignored _ _ _ _ ht | readByte _ _ _ _ ht | writeByte _ _ _ _ _ ht | readStatus _ _ ht =>
    subst ht; exact .inl rfl
  | executed r rest i hp hh _ he =>
    exact (exec_status he).imp_right fun ⟨c, hst, ha⟩ => .inr ⟨r, rest, c, hp, hh, hst, ha⟩
  | illegal r rest e hp hh _ ht =>
    subst ht
    exact .inr (.inr ⟨r, rest, .illegalCmd, hp, hh, statusOfFault_eq_faultStatus _, rfl⟩)
  | reset rest hp ht => subst ht; exact .inr (.inl ⟨rest, hp, rfl⟩)

/-- Settles O41, from the three ways a step can leave STATUS; the host's read of STATUS is one of the host's moves. -/
theorem statusIsWrittenByFaultAndResetOnly : Obligations.StatusIsWrittenByFaultAndResetOnly := by
  intro s t h
  refine ⟨fun legal => ?_, fun changed => (step_status h).resolve_left changed, fun rest hp => ?_⟩
  · rcases step_status h with hst | ⟨_, _, hst⟩ | ⟨_, _, c, _, _, hst, _⟩ <;> rw [hst]
    · exact legal
    · decide
    · exact faultStatus_legal c
  · exact (Host.Outcome.next.inj ((step_pending hp).symm.trans h)).symm

end Sys2Proof
end

