-- ==== Sys2Proof/Proofs/Memory.lean ====
section
/-! PROOFS. The statements of 20_memory.md about the lane maps Pack and Unpack (R41 to R43). The laws are proved for the
little-endian maps, which recurse on the first byte, and carried to the big-endian ones by reversal. -/

namespace Sys2Proof

open Machine

/-! ### Pack -/

theorem packBe_eq_sum (bl : List Byte) :
    packBe bl = ∑ i ∈ Finset.range bl.length, (bl.getD i 0#8).toNat * 2 ^ (8 * (bl.length - 1 - i)) := by
  induction bl with
  | nil => rfl
  | cons b bl ih =>
    rw [packBe, ih, List.length_cons, Finset.sum_range_succ', Nat.add_comm]
    simp [Nat.sub_sub, Nat.add_comm 1]

theorem packLe_eq_sum (bl : List Byte) :
    packLe bl = ∑ i ∈ Finset.range bl.length, (bl.getD i 0#8).toNat * 2 ^ (8 * i) := by
  induction bl with
  | nil => rfl
  | cons b bl ih =>
    rw [packLe, ih, List.length_cons, Finset.sum_range_succ', Finset.mul_sum, Nat.add_comm]
    congr 1
    · exact Finset.sum_congr rfl fun i _ => by rw [List.getD_cons_succ]; ring
    · simp

/-- A byte appended to a big-endian list becomes the least significant one. -/
theorem packBe_append_singleton (bl : List Byte) (b : Byte) : packBe (bl ++ [b]) = packBe bl * 2 ^ 8 + b.toNat := by
  induction bl with
  | nil => simp [packBe]
  | cons c bl ih =>
    simp only [List.cons_append, packBe, ih, List.length_append, List.length_singleton]
    ring

theorem packBe_reverse (bl : List Byte) : packBe bl.reverse = packLe bl := by
  induction bl with
  | nil => rfl
  | cons b bl ih => rw [List.reverse_cons, packBe_append_singleton, ih, packLe]; omega

/-! ### Unpack -/

theorem valueByte_eq_iff (v v' k k' : Nat) :
    valueByte v k = valueByte v' k' ↔ v / 2 ^ (8 * k) % 2 ^ 8 = v' / 2 ^ (8 * k') % 2 ^ 8 := by
  rw [BitVec.toNat_eq, valueByte_toNat, valueByte_toNat]

/-- Dropping the low byte of a value moves every other byte one place down. -/
theorem valueByte_succ (v k : Nat) : valueByte v (k + 1) = valueByte (v / 2 ^ 8) k := by
  rw [valueByte_eq_iff, Nat.div_div_eq_div_mul, ← Nat.pow_add, Nat.mul_succ, Nat.add_comm]

theorem unpack_le_succ (w v : Nat) : unpack .le (w + 1) v = valueByte v 0 :: unpack .le w (v / 2 ^ 8) := by
  simp [unpack, lane, List.range_succ_eq_map, valueByte_succ]

theorem unpack_le_eq_reverse (w v : Nat) : unpack .le w v = (unpack .be w v).reverse := by
  refine List.ext_getElem (by simp) fun i hi _ => ?_
  have hi : i < w := by simpa using hi
  have : w - 1 - (w - 1 - i) = i := by omega
  simp [unpack, lane, this]

/-! ### The two maps undo each other -/

theorem packLe_unpack (w v : Nat) : packLe (unpack .le w v) = v % 2 ^ (8 * w) := by
  induction w generalizing v with
  | zero => simp [unpack, packLe, Nat.mod_one]
  | succ w ih =>
    rw [unpack_le_succ, packLe, ih, valueByte_toNat, Nat.mul_succ, Nat.add_comm (8 * w), Nat.pow_add, Nat.mod_mul]
    simp

theorem unpack_packLe (bl : List Byte) : unpack .le bl.length (packLe bl) = bl := by
  induction bl with
  | nil => rfl
  | cons b bl ih =>
    have low : valueByte (packLe (b :: bl)) 0 = b := by
      rw [BitVec.toNat_eq, valueByte_toNat, packLe]
      omega
    have rest : packLe (b :: bl) / 2 ^ 8 = packLe bl := by
      rw [packLe]
      omega
    rw [List.length_cons, unpack_le_succ, low, rest, ih]

theorem pack_unpack (ord : ByteOrder) (w v : Nat) : pack ord (unpack ord w v) = v % 2 ^ (8 * w) := by
  cases ord with
  | le => exact packLe_unpack w v
  | be =>
    calc packBe (unpack .be w v) = packBe (unpack .le w v).reverse := by
          rw [unpack_le_eq_reverse, List.reverse_reverse]
      _ = v % 2 ^ (8 * w) := by rw [packBe_reverse, packLe_unpack]

theorem unpack_pack (ord : ByteOrder) (bl : List Byte) : unpack ord bl.length (pack ord bl) = bl := by
  cases ord with
  | le => exact unpack_packLe bl
  | be =>
    apply List.reverse_injective
    calc (unpack .be bl.length (packBe bl)).reverse = unpack .le bl.reverse.length (packLe bl.reverse) := by
          rw [← unpack_le_eq_reverse, ← packBe_reverse, List.reverse_reverse, List.length_reverse]
      _ = bl.reverse := unpack_packLe bl.reverse

/-- The two encodings of a value are equal exactly when its bytes read the same from both ends. -/
theorem unpack_be_eq_le_iff (w v : Nat) :
    unpack .be w v = unpack .le w v ↔
      ∀ k, k < w → v / 2 ^ (8 * k) % 2 ^ 8 = v / 2 ^ (8 * (w - 1 - k)) % 2 ^ 8 := by
  simp only [unpack, List.map_inj_left, List.mem_range, lane, valueByte_eq_iff]
  exact forall₂_congr fun _ _ => eq_comm

/-! ### The statements -/

/-- Settles O18: the little-endian maps undo each other, byte by byte from the low end, and reversal carries that to the
big-endian ones. -/
theorem laneMapLaws : Obligations.LaneMapLaws :=
  ⟨pack_unpack, unpack_pack, unpack_le_eq_reverse, fun bl => (packBe_reverse bl).symm, unpack_be_eq_le_iff⟩

/-- Settles O16, by the two inductions over the byte list and the bound of both. -/
theorem packIsTheWeightedSum : Obligations.PackIsTheWeightedSum := fun bl =>
  ⟨packBe_eq_sum bl, packLe_eq_sum bl, fun ord => pack_lt ord bl⟩

/-- Settles O17: an entry of the list is the value's byte on that entry's lane. -/
theorem unpackListsTheLowBytes : Obligations.UnpackListsTheLowBytes := fun w v =>
  ⟨fun ord => unpack_length ord w v, fun i hi => by
    constructor <;> rw [unpack_getD _ v hi, valueByte_toNat, lane]⟩

end Sys2Proof
end

