-- ==== Sys2Proof/Proofs/FixedInt.lean ====
section
/-! PROOFS. The statements of 40_fixed_int.md about the fixed-width integer commands. What the two accesses do, in the terms
of the statements, comes first: the n-byte and the floating-point commands are built from the same accesses. -/

namespace Sys2Proof

open Machine Claims

/-! ### The accesses in the terms of the statements -/

section access

variable {s : State} {w : Nat} {ord : ByteOrder}

theorem raise_eq_faulted (s : State) (c : Cause) : s.raise c = faulted s c := by
  rw [State.raise, faulted, statusOfFault_eq_faultStatus]

theorem memRead_getD {k : Nat} (hk : k < w) : (s.memRead 0 w).getD k 0#8 = s.slice k := readBytes_getD w _ _ k hk

@[simp] theorem memRead_length (s : State) (off w : Nat) : (s.memRead off w).length = w := readBytes_length w _ _

/-- Pack of the first `w` bytes of the slice is the number they stand for (20_memory.md R41). -/
theorem pack_memRead (s : State) (ord : ByteOrder) (w : Nat) : pack ord (s.memRead 0 w) = sliceNumber s ord w := by
  cases ord with
  | be =>
    rw [pack, packBe_eq_sum, memRead_length]
    exact Finset.sum_congr rfl fun k hk => by rw [memRead_getD (Finset.mem_range.1 hk)]
  | le =>
    rw [pack, packLe_eq_sum, memRead_length]
    exact Finset.sum_congr rfl fun k hk => by rw [memRead_getD (Finset.mem_range.1 hk)]

theorem readAccess_of_le {f : Nat → Value} (h : w ≤ s.ports.len.val) :
    readAccess w ord f s = withResult s (f (sliceNumber s ord w)) := by
  rw [readAccess, if_neg (by omega), pack_memRead]
  rfl

theorem readAccess_of_lt {f : Nat → Value} (h : s.ports.len.val < w) : readAccess w ord f s = faulted s .shortBuf := by
  rw [readAccess, if_pos h, raise_eq_faulted]

theorem writeAccess_of_le {v : Nat} (h : w ≤ s.ports.len.val) :
    writeAccess w ord v s = (s.memWrite 0 (unpack ord w v)).done := by
  rw [writeAccess, if_neg (by omega)]

theorem writeAccess_of_lt {v : Nat} (h : s.ports.len.val < w) : writeAccess w ord v s = faulted s .shortBuf := by
  rw [writeAccess, if_pos h, raise_eq_faulted]

/-- Byte `k` of a value is a byte of its `w` low bytes. -/
theorem valueByte_mod {v k : Nat} (hk : k < w) : valueByte (v % 2 ^ (8 * w)) k = valueByte v k := by
  have split : 2 ^ (8 * w) = 2 ^ (8 * k) * 2 ^ (8 * (w - k)) := by
    rw [← Nat.pow_add]
    congr 1
    omega
  rw [valueByte_eq_iff, split, Nat.mod_mul_right_div_self, Nat.mod_mod_of_dvd _ (Nat.pow_dvd_pow 2 (by omega))]

theorem portByte_eq_valueByte (s : State) (ord : ByteOrder) (w k : Nat) :
    portByte s ord w k = valueByte s.ports.val.toNat (lane ord w k) := by
  cases ord <;> rw [BitVec.toNat_eq, valueByte_toNat, portByte, BitVec.extractLsb'_toNat, Nat.shiftRight_eq_div_pow, lane]

/-- A value whose `w` low bytes are those of VAL puts the bytes of VAL on the lanes (20_memory.md R42). -/
theorem unpack_getD_eq_portByte {v k : Nat} (hv : v % 2 ^ (8 * w) = s.ports.val.toNat % 2 ^ (8 * w)) (hk : k < w) :
    (unpack ord w v).getD k 0#8 = portByte s ord w k := by
  have hlane : lane ord w k < w := by cases ord <;> simp only [lane] <;> omega
  rw [unpack_getD ord v hk, portByte_eq_valueByte, ← valueByte_mod hlane, hv, valueByte_mod hlane]

/-- A write of a value whose `w` low bytes are those of VAL stores them and nothing else (20_memory.md R45). -/
theorem stored_memWrite {v : Nat} (hm : s.bufmem.wf = true) (hv : v % 2 ^ (8 * w) = s.ports.val.toNat % 2 ^ (8 * w)) :
    stored s (s.memWrite 0 (unpack ord w v)).done w (portByte s ord w) := by
  refine ⟨rfl, fun k hk => ?_, fun a ha => ?_⟩
  · have inside := slice_memWrite_of_lt (bl := unpack ord w v) hm (by simpa using hk)
    exact inside.trans (unpack_getD_eq_portByte hv hk)
  · rw [done_bufmem, memWrite_bufmem, read_writeBytes _ _ _ hm, if_neg (by rw [unpack_length]; omega)]

/-- What was written at the start of the slice is read back from there. -/
theorem memRead_done_memWrite {bl : List Byte} (hm : s.bufmem.wf = true) (hbl : bl.length = w) :
    (s.memWrite 0 bl).done.memRead 0 w = bl := by
  subst hbl
  exact readBytes_writeBytes _ bl hm

/-- A completed write leaves the block accepting commands: it changes neither STATUS nor the window. -/
theorem memWrite_done_accepting (off : Nat) (bl : List Byte) (h : s.accepting) : (s.memWrite off bl).done.accepting := h

end access

/-! ### The fixed-width commands by their fields -/

theorem exec_fixedRead {k : Kind} {w : WidthSel} {o : ByteOrder} {i : Instr} (hk : fixedKind k)
    (h : instrOfFields k w .rd o = .ok i) (s : State) : exec i s = fixedRead (widthSelBits w) o s := by
  rcases hk with rfl | rfl <;> cases w <;> cases o <;> cases h <;> rfl

theorem exec_fixedWrite {k : Kind} {w : WidthSel} {o : ByteOrder} {i : Instr} (hk : fixedKind k)
    (h : instrOfFields k w .wr o = .ok i) (s : State) : exec i s = fixedWrite (widthSelBits w) o s := by
  rcases hk with rfl | rfl <;> cases w <;> cases o <;> cases h <;> rfl

/-- Settles O24: the fields of a fixed-width command other than KIND settle what it does. -/
theorem signedFixedCommandsAreTheUnsignedOnes : Obligations.SignedFixedCommandsAreTheUnsignedOnes := by
  intro w d o iu ii hu hi s
  cases d with
  | rd => rw [exec_fixedRead (.inl rfl) hu, exec_fixedRead (.inr rfl) hi]
  | wr => rw [exec_fixedWrite (.inl rfl) hu, exec_fixedWrite (.inr rfl) hi]

/-! ### One read, one write -/

section fixed

variable {s : State} {n w : Nat} {ord : ByteOrder} {i : Instr} {cmd : Byte}

theorem fixedRead_of_le (hs : s.accepting) (hl : n / 8 ≤ s.ports.len.val) :
    fixedRead n ord s = .next (withResult s (BitVec.ofNat 128 (sliceNumber s ord (n / 8)))) := by
  rw [fixedRead, commandStep_accepting hs, readAccess_of_le hl]

theorem fixedRead_of_lt (hs : s.accepting) (hl : s.ports.len.val < n / 8) :
    fixedRead n ord s = .next (faulted s .shortBuf) := by
  rw [fixedRead, commandStep_accepting hs, readAccess_of_lt hl]

theorem fixedWrite_of_le (hs : s.accepting) (hl : n / 8 ≤ s.ports.len.val) :
    fixedWrite n ord s = .next (s.memWrite 0 (unpack ord (n / 8) (s.valueOperand n).toNat)).done := by
  rw [fixedWrite, commandStep_accepting hs, writeAccess_of_le hl]

theorem fixedWrite_of_lt (hs : s.accepting) (hl : s.ports.len.val < n / 8) :
    fixedWrite n ord s = .next (faulted s .shortBuf) := by
  rw [fixedWrite, commandStep_accepting hs, writeAccess_of_lt hl]

/-- VAL[N-1:0] as a number (30_encoding.md R68). -/
theorem valueOperand_toNat (s : State) (n : Nat) : (s.valueOperand n).toNat = s.ports.val.toNat % 2 ^ n :=
  BitVec.toNat_setWidth ..

theorem eight_mul_div (w : Nat) : 8 * w / 8 = w := Nat.mul_div_cancel_left w (by decide)

/-- A command whose meaning is FixedRead reads the number its bytes stand for (40_fixed_int.md R81). -/
theorem readsAs_of_fixedRead (hd : decode cmd = .ok i) (he : ∀ s, exec i s = fixedRead (8 * w) ord s) :
    readsAs i cmd w fun s => BitVec.ofNat 128 (sliceNumber s ord w) := by
  refine ⟨hd, fun s hs => ⟨fun hl => ?_, fun hl => ?_⟩⟩ <;> rw [← eight_mul_div w] at hl
  · rw [he, fixedRead_of_le hs hl, eight_mul_div]
  · rw [he, fixedRead_of_lt hs hl]

/-- A command whose meaning is FixedWrite stores the low bytes of VAL, whatever its value (40_fixed_int.md R82). -/
theorem writesAs_of_fixedWrite (hd : decode cmd = .ok i) (he : ∀ s, exec i s = fixedWrite (8 * w) ord s) :
    writesAs i cmd w ord := by
  refine ⟨hd, fun s hs hm => ⟨fun hl => ?_, fun hl => ?_⟩⟩ <;> rw [← eight_mul_div w] at hl
  · rw [he, fixedWrite_of_le hs hl, eight_mul_div]
    exact ⟨_, rfl, stored_memWrite hm (by rw [valueOperand_toNat, Nat.mod_mod])⟩
  · rw [he, fixedWrite_of_lt hs hl]

end fixed

/-- Settles O1: each of the eight commands is FixedRead of its width. -/
theorem fixedUnsignedReadsReturnTheNumber : Obligations.FixedUnsignedReadsReturnTheNumber := by
  refine ⟨?_, ?_, ?_, ?_, ?_, ?_, ?_, ?_⟩ <;> exact readsAs_of_fixedRead rfl fun _ => rfl

/-- Settles O2: each of the eight commands is FixedWrite of its width. -/
theorem fixedUnsignedWritesStoreTheBytes : Obligations.FixedUnsignedWritesStoreTheBytes := by
  refine ⟨?_, ?_, ?_, ?_, ?_, ?_, ?_, ?_⟩ <;> exact writesAs_of_fixedWrite rfl fun _ => rfl

/-- Settles O3: the signed reads are FixedRead too, so the pattern is not sign-extended. -/
theorem fixedSignedReadsReturnThePattern : Obligations.FixedSignedReadsReturnThePattern := by
  refine ⟨?_, ?_, ?_, ?_, ?_, ?_, ?_, ?_⟩ <;> exact readsAs_of_fixedRead rfl fun _ => rfl

/-- Settles O4: the signed writes are FixedWrite too, which checks no range. -/
theorem fixedSignedWritesStoreTheBytes : Obligations.FixedSignedWritesStoreTheBytes := by
  refine ⟨?_, ?_, ?_, ?_, ?_, ?_, ?_, ?_⟩ <;> exact writesAs_of_fixedWrite rfl fun _ => rfl

/-! ### A write, then a read -/

/-- The bytes of a value listed in one ordering and packed in the other are the reversed pattern. -/
theorem pack_unpack_of_ne {o o' : ByteOrder} (h : o ≠ o') (w v : Nat) : pack o' (unpack o w v) = byteReversed w v := by
  have le_be : packBe (unpack .le w v) = byteReversed w v := by
    rw [packBe_eq_sum, unpack_length]
    exact Finset.sum_congr rfl fun k hk => by
      rw [unpack_getD _ _ (Finset.mem_range.1 hk), valueByte_toNat, lane]
  cases o with
  | be => cases o' with
    | be => exact absurd rfl h
    | le => rw [pack, ← packBe_reverse, ← unpack_le_eq_reverse, le_be]
  | le => cases o' with
    | be => exact le_be
    | le => exact absurd rfl h

theorem pack_unpack_eq_ite (o o' : ByteOrder) (w v : Nat) :
    pack o' (unpack o w v) = if o = o' then v % 2 ^ (8 * w) else byteReversed w v := by
  split
  · next h => rw [h, pack_unpack]
  · next h => exact pack_unpack_of_ne h w v

theorem eight_mul_widthSelBytes (w : WidthSel) : 8 * (widthSelBits w / 8) = widthSelBits w := by cases w <;> rfl

/-- Settles O25: the read sees exactly the bytes the write listed, and Pack gives their value back, in the same ordering
as it was and in the other one reversed. -/
theorem fixedWidthRoundTrip : Obligations.FixedWidthRoundTrip := by
  intro k k' w o o' wr rd hk hk' hwr hrd s hs hm hl
  refine ⟨_, (exec_fixedWrite hk hwr s).trans (fixedWrite_of_le hs hl), ?_⟩
  rw [exec_fixedRead hk' hrd, fixedRead_of_le (memWrite_done_accepting _ _ hs) hl, ← pack_memRead,
    memRead_done_memWrite hm (unpack_length ..), pack_unpack_eq_ite, eight_mul_widthSelBytes, valueOperand_toNat,
    Nat.mod_mod]

end Sys2Proof
end

