-- ==== Sys2Proof/Proofs/NByteInt.lean ====
section
/-! PROOFS. The statements of 41_nbyte_int.md about the n-byte integer commands. First the functions they share, pack_size
(R121, R122) and the sign handling (R124, R125); then what an n-byte read and an n-byte write do, for any result and any
value check; the commands of both containers are read off from these. -/

namespace Sys2Proof

open Machine Claims

/-! ### pack_size -/

/-- The ladder from rung `k` ends between `k` and the value of its last resort. -/
theorem packSizeFrom_bounds (n k rungs : Nat) : k ≤ packSizeFrom n k rungs ∧ packSizeFrom n k rungs ≤ k + rungs := by
  induction rungs generalizing k with
  | zero => exact ⟨le_refl k, le_refl k⟩
  | succ rungs ih =>
    have above := ih (k + 1)
    rw [packSizeFrom]
    split <;> omega

/-- The ladder stops at rung `j` or before exactly when the comparison of rung `j` holds. -/
theorem packSizeFrom_le_iff {n k j rungs : Nat} (hk : k ≤ j) (hj : j < k + rungs) :
    packSizeFrom n k rungs ≤ j ↔ n < 2 ^ (8 * j) := by
  induction rungs generalizing k with
  | zero => omega
  | succ rungs ih =>
    rw [packSizeFrom]
    split
    · next h => exact iff_of_true hk (h.trans_le (Nat.pow_le_pow_right (by decide) (by omega)))
    · next h =>
      rcases hk.eq_or_lt with rfl | hk
      · have above := packSizeFrom_bounds n (k + 1) rungs
        exact iff_of_false (by omega) h
      · exact ih hk (by omega)

/-- For a number of the container's width the value of last resort holds it too. -/
theorem packSizeFrom_le_iff_of_lt {n k j rungs : Nat} (hn : n < 2 ^ (8 * (k + rungs))) (hk : k ≤ j)
    (hj : j ≤ k + rungs) : packSizeFrom n k rungs ≤ j ↔ n < 2 ^ (8 * j) := by
  rcases hj.eq_or_lt with rfl | hj
  · exact iff_of_true (packSizeFrom_bounds n k rungs).2 hn
  · exact packSizeFrom_le_iff hk hj

/-- The ladder ends at a rung exactly when that rung is the first whose comparison holds. -/
theorem packSizeFrom_eq_iff {n j rungs : Nat} (h1 : 1 ≤ j) (hj : j ≤ rungs) :
    packSizeFrom n 1 rungs = j ↔ n < 2 ^ (8 * j) ∧ (j = 1 ∨ 2 ^ (8 * (j - 1)) ≤ n) := by
  have bounds := packSizeFrom_bounds n 1 rungs
  rw [← packSizeFrom_le_iff (k := 1) (rungs := rungs) h1 (by omega)]
  rcases h1.eq_or_lt with rfl | h1
  · omega
  · have before := packSizeFrom_le_iff (n := n) (k := 1) (j := j - 1) (rungs := rungs) (by omega) (by omega)
    omega

/-- The last resort is taken exactly when the last comparison fails. -/
theorem packSizeFrom_eq_last_iff {n rungs : Nat} (hr : 1 ≤ rungs) :
    packSizeFrom n 1 rungs = rungs + 1 ↔ 2 ^ (8 * rungs) ≤ n := by
  have bounds := packSizeFrom_bounds n 1 rungs
  have last := packSizeFrom_le_iff (n := n) (k := 1) (j := rungs) (rungs := rungs) hr (by omega)
  omega

/-- That no smaller byte count holds `n` is a matter of the next smaller one. -/
theorem forall_not_lt_pow_iff {n k : Nat} (h1 : 1 ≤ k) :
    (∀ j, 1 ≤ j → j < k → ¬ n < 2 ^ (8 * j)) ↔ k = 1 ∨ 2 ^ (8 * (k - 1)) ≤ n := by
  constructor
  · intro h
    by_cases hk : k = 1
    · exact .inl hk
    · exact .inr (not_lt.1 (h (k - 1) (by omega) (by omega)))
  · rintro (rfl | h) j hj hjk
    · omega
    · have mono : 2 ^ (8 * j) ≤ 2 ^ (8 * (k - 1)) := Nat.pow_le_pow_right (by decide) (by omega)
      omega

/-- Settles O19: both functions are the ladder from rung 1, with 7 and with 15 comparisons. -/
theorem packSizeIsTheLeastByteCount : Obligations.PackSizeIsTheLeastByteCount :=
  ⟨fun _ _ h1 hk => packSizeFrom_eq_iff h1 hk,
    fun _ => packSizeFrom_eq_last_iff (rungs := 7) (by decide),
    fun _ _ h1 hk => packSizeFrom_le_iff h1 (by omega),
    fun n => (packSizeFrom_bounds n 1 7).2,
    fun _ _ h1 hk => by rw [forall_not_lt_pow_iff h1]; exact packSizeFrom_eq_iff h1 hk,
    fun _ => packSizeFrom_eq_last_iff (rungs := 15) (by decide)⟩

/-- `size` is the byte count of the numbers of a container of `c` bytes (41_nbyte_int.md R121, R122). -/
def MeasuresBytes (c : Nat) (size : Nat → Nat) : Prop :=
  ∀ {n nb : Nat}, n < 2 ^ (8 * c) → 1 ≤ nb → nb ≤ c → (size n ≤ nb ↔ n < 2 ^ (8 * nb))

theorem packSize_measuresBytes : MeasuresBytes 8 packSize :=
  packSizeFrom_le_iff_of_lt (k := 1) (rungs := 7)

theorem packSize128_measuresBytes : MeasuresBytes 16 packSize128 :=
  packSizeFrom_le_iff_of_lt (k := 1) (rungs := 15)

/-! ### Sign handling -/

section sign

variable {c nb : Nat}

/-- The left shift brings bit 8 NB - 1 to the top, and the arithmetic right shift copies it (41_nbyte_int.md R124). -/
theorem extendSign_getLsbD (raw : BitVec (8 * c)) (h1 : 1 ≤ nb) (hc : nb ≤ c) {j : Nat} (hj : j < 8 * c) :
    (extendSign c raw nb).getLsbD j = if j < 8 * nb then raw.getLsbD j else raw.getLsbD (8 * nb - 1) := by
  have top : (raw <<< shiftAmount c nb).msb = raw.getLsbD (8 * nb - 1) := by
    have hpos : 8 * c - 1 - (c - nb) * 8 = 8 * nb - 1 := by omega
    have hin : (c - nb) * 8 < 8 * c := by omega
    rw [BitVec.msb_shiftLeft, BitVec.getMsbD_eq_getLsbD, shiftAmount, hpos, decide_eq_true hin, Bool.true_and]
  rw [extendSign, BitVec.getLsbD_sshiftRight, top]
  by_cases hlow : j < 8 * nb
  · have hin : shiftAmount c nb + j < 8 * c := by rw [shiftAmount]; omega
    simp [hj, hlow, hin]
  · have hout : ¬ shiftAmount c nb + j < 8 * c := by rw [shiftAmount]; omega
    simp [hj, hlow, hout]

/-- extend_sign is the sign extension of the low 8 NB bits. -/
theorem extendSign_eq_signExtend (raw : BitVec (8 * c)) (h1 : 1 ≤ nb) (hc : nb ≤ c) :
    extendSign c raw nb = (raw.setWidth (8 * nb)).signExtend (8 * c) := by
  refine BitVec.eq_of_getLsbD_eq fun j hj => ?_
  have htop : 8 * nb - 1 < 8 * nb := by omega
  rw [extendSign_getLsbD raw h1 hc hj, BitVec.getLsbD_signExtend, BitVec.msb_eq_getLsbD_last,
    BitVec.getLsbD_setWidth, BitVec.getLsbD_setWidth]
  by_cases hlow : j < 8 * nb <;> simp [hj, hlow, htop]

theorem extendSign_self (raw : BitVec (8 * c)) : extendSign c raw c = raw := by
  simp [extendSign, shiftAmount]

/-- Settles O20, bit by bit. -/
theorem extendSignCopiesTheSignBit : Obligations.ExtendSignCopiesTheSignBit :=
  fun _ _ raw h1 hc => ⟨fun _ hj => extendSign_getLsbD raw h1 hc hj, fun h => h ▸ extendSign_self raw⟩

/-- unextend_sign keeps the low 8 NB bits (41_nbyte_int.md R125). -/
theorem unextendSign_toNat (v : BitVec (8 * c)) (hc : nb ≤ c) :
    (unextendSign c v nb).toNat = v.toNat % 2 ^ (8 * nb) := by
  have split : 2 ^ (8 * c) = 2 ^ (8 * nb) * 2 ^ shiftAmount c nb := by
    rw [← Nat.pow_add, shiftAmount]
    congr 1
    omega
  rw [unextendSign, BitVec.toNat_ushiftRight, BitVec.toNat_shiftLeft, Nat.shiftRight_eq_div_pow, Nat.shiftLeft_eq, split,
    Nat.mul_mod_mul_right, Nat.mul_div_cancel _ (Nat.two_pow_pos _)]

/-- Masking first makes no difference to the sign extension, which looks at the low 8 NB bits only. -/
theorem extendSign_unextendSign (v : BitVec (8 * c)) (h1 : 1 ≤ nb) (hc : nb ≤ c) :
    extendSign c (unextendSign c v nb) nb = extendSign c v nb := by
  have low : (unextendSign c v nb).setWidth (8 * nb) = v.setWidth (8 * nb) := by
    rw [BitVec.toNat_eq, BitVec.toNat_setWidth, BitVec.toNat_setWidth, unextendSign_toNat v hc, Nat.mod_mod]
  rw [extendSign_eq_signExtend _ h1 hc, extendSign_eq_signExtend _ h1 hc, low]

theorem fitsSigned_iff_extendSign_eq (v : BitVec (8 * c)) (h1 : 1 ≤ nb) (hc : nb ≤ c) :
    fitsSigned c v nb = true ↔ extendSign c v nb = v := by
  rw [fitsSigned, extendSign_unextendSign v h1 hc, beq_iff_eq]

theorem fitsSigned_self (v : BitVec (8 * c)) : fitsSigned c v c = true := by
  simp [fitsSigned, extendSign, unextendSign, shiftAmount]

/-- Sign extension is the reduction of the signed value to the NB-byte range. -/
theorem extendSign_toInt (v : BitVec (8 * c)) (h1 : 1 ≤ nb) (hc : nb ≤ c) :
    (extendSign c v nb).toInt = v.toInt.bmod (2 ^ (8 * nb)) := by
  rw [extendSign_eq_signExtend v h1 hc, BitVec.toInt_signExtend_of_le (by omega), BitVec.toInt_setWidth,
    BitVec.toInt_eq_toNat_bmod v, Int.bmod_bmod_of_dvd (Nat.pow_dvd_pow 2 (by omega))]

/-- FitsSigned holds exactly for the signed values of the NB-byte range (41_nbyte_int.md R125). -/
theorem fitsSigned_iff_range (v : BitVec (8 * c)) (h1 : 1 ≤ nb) (hc : nb ≤ c) :
    fitsSigned c v nb = true ↔
      -(2 : Int) ^ (8 * nb - 1) ≤ v.toInt ∧ v.toInt ≤ (2 : Int) ^ (8 * nb - 1) - 1 := by
  have double : (2 : Int) ^ (8 * nb) = 2 * 2 ^ (8 * nb - 1) := by
    rw [← pow_succ']
    congr 1
    omega
  rw [fitsSigned_iff_extendSign_eq v h1 hc, ← BitVec.toInt_inj, extendSign_toInt v h1 hc,
    Int.bmod_eq_iff (Nat.two_pow_pos _)]
  push_cast
  rw [sub_self, double]
  constructor
  · rintro ⟨hlo, hhi, -⟩
    omega
  · rintro ⟨hlo, hhi⟩
    exact ⟨by omega, by omega, dvd_zero _⟩

end sign

/-! ### What an n-byte command does -/

section nbyte

variable {s t : State} {c : Nat} {ord : ByteOrder} {body : Nat → State → State} {result : Nat → Nat → Value}
  {fits : Nat → State → Bool} {v : Nat → State → Nat} {i : Instr} {cmd : Byte}

/-- What the gate gives depends on the body at this one state. -/
theorem commandStep_congr {f g : State → State} (h : f s = g s) : commandStep f s = commandStep g s := by
  simp only [commandStep, h]

/-- With a legal NB an n-byte command is its body behind the gate, in every state (41_nbyte_int.md R120). -/
theorem nbyteCommand_of_legal {nb : Nat} (hnb : s.ports.nb.toNat = nb) (h1 : 1 ≤ nb) (hc : nb ≤ c) :
    nbyteCommand c body s = commandStep (body nb) s := by
  subst hnb
  have legal : nbytesLegal c s.nbytes = true := (nbytesLegal_iff _ _).2 ⟨h1, hc⟩
  exact commandStep_congr (if_pos legal)

theorem nbyteCommand_of_illegal (hs : s.accepting) (hn : s.ports.nb.toNat < 1 ∨ c < s.ports.nb.toNat) :
    nbyteCommand c body s = .next (faulted s .nbytesRange) := by
  have illegal : ¬ nbytesLegal c s.nbytes = true := by rw [nbytesLegal_iff, State.nbytes]; omega
  rw [nbyteCommand, commandStep_accepting hs, if_neg illegal, raise_eq_faulted]

/-- An n-byte read returns its function of the number the NB bytes stand for (41_nbyte_int.md R126). -/
theorem nbyteRead_of_legal (hs : s.accepting) (h1 : 1 ≤ s.ports.nb.toNat) (hc : s.ports.nb.toNat ≤ c)
    (hl : s.ports.nb.toNat ≤ s.ports.len.val) :
    nbyteRead c ord result s =
      .next (withResult s (result s.ports.nb.toNat (sliceNumber s ord s.ports.nb.toNat))) := by
  rw [nbyteRead, nbyteCommand_of_legal rfl h1 hc, commandStep_accepting hs, readAccess_of_le hl]

theorem nbyteReadsAs_of_nbyteRead (hd : decode cmd = .ok i) (he : ∀ s, exec i s = nbyteRead c ord result s) :
    nbyteReadsAs i cmd c fun s => result s.ports.nb.toNat (sliceNumber s ord s.ports.nb.toNat) := by
  refine ⟨hd, fun s hs => ⟨fun h1 hc hl => ?_, fun hn => ?_, fun h1 hc hl => ?_⟩⟩ <;> rw [he]
  · exact nbyteRead_of_legal hs h1 hc hl
  · exact nbyteCommand_of_illegal hs hn
  · rw [nbyteRead, nbyteCommand_of_legal rfl h1 hc, commandStep_accepting hs, readAccess_of_lt hl]

/-- Behind a legal NB an n-byte write is its value check and its access (41_nbyte_int.md R127). -/
theorem nbyteWrite_of_legal (hs : s.accepting) (h1 : 1 ≤ s.ports.nb.toNat) (hc : s.ports.nb.toNat ≤ c) :
    nbyteWrite c ord fits v s =
      .next (checkedWrite (fits s.ports.nb.toNat s) s.ports.nb.toNat ord (v s.ports.nb.toNat s) s) := by
  rw [nbyteWrite, nbyteCommand_of_legal rfl h1 hc, commandStep_accepting hs]

theorem nbyteWrite_of_misfit (hs : s.accepting) (h1 : 1 ≤ s.ports.nb.toNat) (hc : s.ports.nb.toNat ≤ c)
    (hf : ¬ fits s.ports.nb.toNat s = true) : nbyteWrite c ord fits v s = .next (faulted s .valueRange) := by
  rw [nbyteWrite_of_legal hs h1 hc, checkedWrite, if_neg hf, raise_eq_faulted]

theorem nbyteWrite_of_fit_of_lt (hs : s.accepting) (h1 : 1 ≤ s.ports.nb.toNat) (hc : s.ports.nb.toNat ≤ c)
    (hf : fits s.ports.nb.toNat s = true) (hl : s.ports.len.val < s.ports.nb.toNat) :
    nbyteWrite c ord fits v s = .next (faulted s .shortBuf) := by
  rw [nbyteWrite_of_legal hs h1 hc, checkedWrite, if_pos hf, writeAccess_of_lt hl]

theorem nbyteWrite_of_fit_of_le (hs : s.accepting) (h1 : 1 ≤ s.ports.nb.toNat) (hc : s.ports.nb.toNat ≤ c)
    (hf : fits s.ports.nb.toNat s = true) (hl : s.ports.nb.toNat ≤ s.ports.len.val) :
    nbyteWrite c ord fits v s =
      .next (s.memWrite 0 (unpack ord s.ports.nb.toNat (v s.ports.nb.toNat s))).done := by
  rw [nbyteWrite_of_legal hs h1 hc, checkedWrite, if_pos hf, writeAccess_of_le hl]

/-- An n-byte write whose value check is `P` and whose number agrees with VAL in the low NB bytes stores these bytes. -/
theorem nbyteWritesAs_of_nbyteWrite {P : State → Prop} (hd : decode cmd = .ok i)
    (he : ∀ s, exec i s = nbyteWrite c ord fits v s)
    (hfits : ∀ s, 1 ≤ s.ports.nb.toNat → s.ports.nb.toNat ≤ c → (fits s.ports.nb.toNat s = true ↔ P s))
    (hv : ∀ s, s.ports.nb.toNat ≤ c →
      v s.ports.nb.toNat s % 2 ^ (8 * s.ports.nb.toNat) = s.ports.val.toNat % 2 ^ (8 * s.ports.nb.toNat)) :
    nbyteWritesAs i cmd c ord P := by
  refine ⟨hd, fun s hs hm => ⟨fun h1 hc hf hl => ?_, fun hn => ?_, fun h1 hc hf => ?_, fun h1 hc hf hl => ?_⟩⟩ <;>
    rw [he]
  · exact ⟨_, nbyteWrite_of_fit_of_le hs h1 hc ((hfits s h1 hc).2 hf) hl, stored_memWrite hm (hv s hc)⟩
  · exact nbyteCommand_of_illegal hs hn
  · exact nbyteWrite_of_misfit hs h1 hc (hf ∘ (hfits s h1 hc).1)
  · exact nbyteWrite_of_fit_of_lt hs h1 hc ((hfits s h1 hc).2 hf) hl

theorem nbyteReadsAs_of_readUint (hd : decode cmd = .ok i) (he : ∀ s, exec i s = readUint c ord s) :
    nbyteReadsAs i cmd c fun s => BitVec.ofNat 128 (sliceNumber s ord s.ports.nb.toNat) :=
  nbyteReadsAs_of_nbyteRead hd he

/-- A command whose meaning is RD.INT's returns the shifted extension, zero above the container (41_nbyte_int.md R131). -/
theorem nbyteReadsAs_of_readInt (hd : decode cmd = .ok i) (he : ∀ s, exec i s = readInt c ord s) :
    nbyteReadsAs i cmd c fun s =>
      (shiftedExtension c s.ports.nb.toNat (sliceNumber s ord s.ports.nb.toNat)).setWidth 128 :=
  nbyteReadsAs_of_nbyteRead hd he

end nbyte

/-! ### The reads -/

/-- Settles O8: RD.UINT is the n-byte read whose result is the number itself. -/
theorem nbyteUnsignedReadsZeroExtend : Obligations.NbyteUnsignedReadsZeroExtend :=
  ⟨nbyteReadsAs_of_readUint rfl fun _ => rfl, nbyteReadsAs_of_readUint rfl fun _ => rfl⟩

/-- Settles O12: RD.UINT128 is the same read on the 128-bit container. -/
theorem nbyte128UnsignedReadsZeroExtend : Obligations.Nbyte128UnsignedReadsZeroExtend :=
  ⟨nbyteReadsAs_of_readUint rfl fun _ => rfl, nbyteReadsAs_of_readUint rfl fun _ => rfl⟩

/-- Settles O10: RD.INT extends in the 64-bit container. -/
theorem nbyteSignedReadsSignExtend : Obligations.NbyteSignedReadsSignExtend :=
  ⟨nbyteReadsAs_of_readInt rfl fun _ => rfl, nbyteReadsAs_of_readInt rfl fun _ => rfl⟩

/-- Settles O14: the 128-bit container is RES itself, so widening it changes nothing. -/
theorem nbyte128SignedReadsSignExtend : Obligations.Nbyte128SignedReadsSignExtend := by
  have fills (nb n : Nat) : (shiftedExtension 16 nb n).setWidth 128 = shiftedExtension 16 nb n := BitVec.setWidth_eq _
  have be : nbyteReadsAs .rdInt128Be 0x5C 16 _ := nbyteReadsAs_of_readInt rfl fun _ => rfl
  have le : nbyteReadsAs .rdInt128Le 0x5D 16 _ := nbyteReadsAs_of_readInt rfl fun _ => rfl
  simp only [fills] at be le
  exact ⟨be, le⟩

/-! ### The writes -/

section writes

variable {i : Instr} {cmd : Byte} {c : Nat} {ord : ByteOrder} {size : Nat → Nat}

/-- The low NB bytes of VAL[8C-1:0] are those of VAL. -/
theorem valueOperand_mod (s : State) {nb : Nat} (hc : nb ≤ c) :
    (s.valueOperand (8 * c)).toNat % 2 ^ (8 * nb) = s.ports.val.toNat % 2 ^ (8 * nb) := by
  rw [valueOperand_toNat, Nat.mod_mod_of_dvd _ (Nat.pow_dvd_pow 2 (by omega))]

/-- The byte count of VAL[8C-1:0] is at most NB exactly when the number fits (41_nbyte_int.md R130). -/
theorem size_le_iff_unsignedFits (hsize : MeasuresBytes c size) (s : State) (h1 : 1 ≤ s.ports.nb.toNat)
    (hc : s.ports.nb.toNat ≤ c) :
    size (s.valueOperand (8 * c)).toNat ≤ s.ports.nb.toNat ↔ unsignedFits c s.ports := by
  rw [hsize (s.valueOperand (8 * c)).isLt h1 hc, valueOperand_toNat, unsignedFits]

theorem nbyteWritesAs_of_writeUint (hsize : MeasuresBytes c size) (hd : decode cmd = .ok i)
    (he : ∀ s, exec i s = writeUint c size ord s) :
    nbyteWritesAs i cmd c ord fun s => unsignedFits c s.ports :=
  nbyteWritesAs_of_nbyteWrite hd he
    (fun s h1 hc => decide_eq_true_iff.trans (size_le_iff_unsignedFits hsize s h1 hc))
    (fun s hc => valueOperand_mod s hc)

theorem nbyteWritesAs_of_writeInt (hd : decode cmd = .ok i) (he : ∀ s, exec i s = writeInt c ord s) :
    nbyteWritesAs i cmd c ord fun s => signedFits c s.ports :=
  nbyteWritesAs_of_nbyteWrite hd he
    (fun s h1 hc => fitsSigned_iff_range (s.valueOperand (8 * c)) h1 hc)
    (fun s hc => by rw [unextendSign_toNat _ hc, Nat.mod_mod, valueOperand_mod s hc])

end writes

/-- Settles O9: pack_size measures the numbers of the 64-bit container. -/
theorem nbyteUnsignedWritesCheckAndStore : Obligations.NbyteUnsignedWritesCheckAndStore :=
  ⟨nbyteWritesAs_of_writeUint packSize_measuresBytes rfl fun _ => rfl,
    nbyteWritesAs_of_writeUint packSize_measuresBytes rfl fun _ => rfl⟩

/-- Settles O13: pack_size128 measures the numbers of the 128-bit container. -/
theorem nbyte128UnsignedWritesCheckAndStore : Obligations.Nbyte128UnsignedWritesCheckAndStore :=
  ⟨nbyteWritesAs_of_writeUint packSize128_measuresBytes rfl fun _ => rfl,
    nbyteWritesAs_of_writeUint packSize128_measuresBytes rfl fun _ => rfl⟩

/-- Settles O11: FitsSigned is the signed range, and the masked value has the low NB bytes of VAL. -/
theorem nbyteSignedWritesCheckAndStore : Obligations.NbyteSignedWritesCheckAndStore :=
  ⟨nbyteWritesAs_of_writeInt rfl fun _ => rfl, nbyteWritesAs_of_writeInt rfl fun _ => rfl⟩

/-- Settles O15, as O11 on the 128-bit container. -/
theorem nbyte128SignedWritesCheckAndStore : Obligations.Nbyte128SignedWritesCheckAndStore :=
  ⟨nbyteWritesAs_of_writeInt rfl fun _ => rfl, nbyteWritesAs_of_writeInt rfl fun _ => rfl⟩

/-! ### A write, then the matching read -/

section roundTrip

variable {s t : State} {c : Nat} {ord : ByteOrder} {result : Nat → Nat → Value} {fits : Nat → State → Bool}
  {v : Nat → State → Nat} {size : Nat → Nat}

/-- A write that did not fault passed its three checks (41_nbyte_int.md R127). -/
theorem nbyteWrite_completed (h : nbyteWrite c ord fits v s = .next t) (ht : t.halted = false) :
    s.accepting ∧ 1 ≤ s.ports.nb.toNat ∧ s.ports.nb.toNat ≤ c ∧ fits s.ports.nb.toNat s = true ∧
      s.ports.nb.toNat ≤ s.ports.len.val ∧
      t = (s.memWrite 0 (unpack ord s.ports.nb.toNat (v s.ports.nb.toNat s))).done := by
  have noFault (a : Cause) : nbyteWrite c ord fits v s ≠ .next (faulted s a) := fun he => by
    have hta : t = s.raise a := (Host.Outcome.next.inj (h.symm.trans he)).trans (raise_eq_faulted s a).symm
    rw [hta, raise_halted] at ht
    cases ht
  have hs : s.accepting := by
    rw [nbyteWrite, nbyteCommand] at h
    exact (commandStep_eq_next.1 h).1
  have legal : 1 ≤ s.ports.nb.toNat ∧ s.ports.nb.toNat ≤ c := by
    by_contra hn
    exact noFault _ (nbyteCommand_of_illegal hs (by omega))
  obtain ⟨h1, hc⟩ := legal
  have hf : fits s.ports.nb.toNat s = true := by
    by_contra hf
    exact noFault _ (nbyteWrite_of_misfit hs h1 hc hf)
  have hl : s.ports.nb.toNat ≤ s.ports.len.val := by
    by_contra hl
    exact noFault _ (nbyteWrite_of_fit_of_lt hs h1 hc hf (not_le.1 hl))
  exact ⟨hs, h1, hc, hf, hl, Host.Outcome.next.inj (h.symm.trans (nbyteWrite_of_fit_of_le hs h1 hc hf hl))⟩

/-- The matching read gets the low NB bytes of the number written (41_nbyte_int.md R137). -/
theorem nbyteRead_of_completed (hm : s.bufmem.wf = true) (h : nbyteWrite c ord fits v s = .next t)
    (ht : t.halted = false) :
    nbyteRead c ord result t = .next (withResult t
      (result s.ports.nb.toNat (v s.ports.nb.toNat s % 2 ^ (8 * s.ports.nb.toNat)))) := by
  obtain ⟨hs, h1, hc, -, hl, rfl⟩ := nbyteWrite_completed h ht
  rw [nbyteRead_of_legal (memWrite_done_accepting _ _ hs) h1 hc hl, ← pack_memRead, done_ports, memWrite_ports,
    memRead_done_memWrite hm (unpack_length ..), pack_unpack]

theorem readUint_of_completed (hsize : MeasuresBytes c size) (hm : s.bufmem.wf = true)
    (h : writeUint c size ord s = .next t) (ht : t.halted = false) :
    readUint c ord t = .next (withResult t (BitVec.ofNat 128 (s.ports.val.toNat % 2 ^ (8 * c)))) := by
  obtain ⟨-, h1, hc, hf, -, -⟩ := nbyteWrite_completed h ht
  have fit := (size_le_iff_unsignedFits hsize s h1 hc).1 (of_decide_eq_true hf)
  rw [readUint, nbyteRead_of_completed hm h ht, valueOperand_toNat, Nat.mod_eq_of_lt fit]

theorem readInt_of_completed (hm : s.bufmem.wf = true) (h : writeInt c ord s = .next t) (ht : t.halted = false) :
    readInt c ord t = .next (withResult t (BitVec.ofNat 128 (s.ports.val.toNat % 2 ^ (8 * c)))) := by
  obtain ⟨-, h1, hc, hf, -, -⟩ := nbyteWrite_completed h ht
  have masked := unextendSign_toNat (s.valueOperand (8 * c)) hc
  have back : extendSign c (unextendSign c (s.valueOperand (8 * c)) s.ports.nb.toNat) s.ports.nb.toNat =
      s.valueOperand (8 * c) := beq_iff_eq.1 hf
  rw [readInt, nbyteRead_of_completed hm h ht, masked, Nat.mod_mod, ← masked, BitVec.ofNat_toNat, BitVec.setWidth_eq,
    back, ← BitVec.ofNat_toNat, valueOperand_toNat]

end roundTrip

/-- Settles O26: the read sees the low NB bytes of what was written, and the value check says that they are all of it. -/
theorem nbyteRoundTrip : Obligations.NbyteRoundTrip := by
  intro k w o wr rd hk hwr hrd s t _ hm h ht
  rcases hk with rfl | rfl
  case inl =>
    cases w with
    | w16 | w32 => cases hwr
    | w64 => cases o <;> cases hwr <;> cases hrd <;> exact readUint_of_completed packSize_measuresBytes hm h ht
    | w128 => cases o <;> cases hwr <;> cases hrd <;> exact readUint_of_completed packSize128_measuresBytes hm h ht
  case inr =>
    cases w with
    | w16 | w32 => cases hwr
    | w64 | w128 => cases o <;> cases hwr <;> cases hrd <;> exact readInt_of_completed hm h ht

/-! ### The n-byte commands at the width of a fixed one -/

section fullWidth

variable {s : State} {c : Nat} {ord : ByteOrder} {size : Nat → Nat}

/-- Two reads whose results agree on the numbers of `w` bytes are one. -/
theorem readAccess_congr {w : Nat} {f g : Nat → Value} (h : ∀ n, n < 2 ^ (8 * w) → f n = g n) :
    readAccess w ord f s = readAccess w ord g s := by
  have bound := pack_lt ord (s.memRead 0 w)
  rw [memRead_length] at bound
  rw [readAccess, readAccess, h _ bound]

theorem readUint_eq_fixedRead {w : Nat} (hn : s.ports.nb.toNat = w) (h1 : 1 ≤ w) (hc : w ≤ c) :
    readUint c ord s = fixedRead (8 * w) ord s := by
  rw [readUint, nbyteRead, nbyteCommand_of_legal hn h1 hc, fixedRead, eight_mul_div]

/-- With NB = C there is nothing to extend. -/
theorem readInt_eq_fixedRead (hn : s.ports.nb.toNat = c) (h1 : 1 ≤ c) : readInt c ord s = fixedRead (8 * c) ord s := by
  rw [readInt, nbyteRead, nbyteCommand_of_legal hn h1 le_rfl, fixedRead, eight_mul_div]
  refine commandStep_congr (readAccess_congr fun n hlt => ?_)
  rw [extendSign_self, ← BitVec.ofNat_toNat, BitVec.toNat_ofNat, Nat.mod_eq_of_lt hlt]

/-- With NB = C every number fits. -/
theorem writeUint_eq_fixedWrite (hsize : MeasuresBytes c size) (hn : s.ports.nb.toNat = c) (h1 : 1 ≤ c) :
    writeUint c size ord s = fixedWrite (8 * c) ord s := by
  have fit : size (s.valueOperand (8 * c)).toNat ≤ c :=
    (hsize (s.valueOperand (8 * c)).isLt h1 le_rfl).2 (s.valueOperand (8 * c)).isLt
  rw [writeUint, nbyteWrite, nbyteCommand_of_legal hn h1 le_rfl, fixedWrite, eight_mul_div]
  exact commandStep_congr (by rw [checkedWrite, if_pos (decide_eq_true fit)])

/-- With NB = C every signed value fits, and masking changes nothing. -/
theorem writeInt_eq_fixedWrite (hn : s.ports.nb.toNat = c) (h1 : 1 ≤ c) :
    writeInt c ord s = fixedWrite (8 * c) ord s := by
  rw [writeInt, nbyteWrite, nbyteCommand_of_legal hn h1 le_rfl, fixedWrite, eight_mul_div]
  refine commandStep_congr ?_
  rw [checkedWrite, if_pos (fitsSigned_self _), unextendSign_toNat _ le_rfl,
    Nat.mod_eq_of_lt (s.valueOperand (8 * c)).isLt]

/-- With NB = C the four n-byte commands are the fixed-width ones of the container's width. -/
theorem nbyte_eq_fixed (hsize : MeasuresBytes c size) (hn : s.ports.nb.toNat = c) (h1 : 1 ≤ c) :
    (∀ ord, readUint c ord s = fixedRead (8 * c) ord s) ∧ (∀ ord, readInt c ord s = fixedRead (8 * c) ord s) ∧
    (∀ ord, writeUint c size ord s = fixedWrite (8 * c) ord s) ∧
    ∀ ord, writeInt c ord s = fixedWrite (8 * c) ord s :=
  ⟨fun _ => readUint_eq_fixedRead hn h1 le_rfl, fun _ => readInt_eq_fixedRead hn h1,
    fun _ => writeUint_eq_fixedWrite hsize hn h1, fun _ => writeInt_eq_fixedWrite hn h1⟩

end fullWidth

/-- A block that accepts commands, whose first four bytes of BUFMEM are all ones, with a window of `len` bytes at address 0. -/
def onesWindow (nb : BitVec 8) (len : Fin 4294967297) : State :=
  { State.reset with
    bufmem := [(0, 0xFF#8), (1, 0xFF#8), (2, 0xFF#8), (3, 0xFF#8)]
    ports := { cmd := 0x58#8, nb := nb, val := 0#128, base := 0, len := len } }

/-- Settles O27: with NB = C the sign extension and the fit checks do nothing; RD.INT of two or of four bytes that are all
ones has bit 63 set, and RD.I16, RD.I32 have not. -/
theorem nbyteCommandsAtFullWidth : Obligations.NbyteCommandsAtFullWidth := by
  refine ⟨fun s h => ?_, fun s h => ?_, fun s h => ?_, fun s h => ?_, ⟨onesWindow 2#8 2, ?_⟩, ⟨onesWindow 4#8 4, ?_⟩⟩
  · have hn : s.ports.nb.toNat = 8 := congrArg BitVec.toNat h
    obtain ⟨ru, ri, wu, wi⟩ := nbyte_eq_fixed packSize_measuresBytes hn (by decide)
    exact ⟨ru .be, ru .le, ri .be, ri .le, wu .be, wu .le, wi .be, wi .le⟩
  · have hn : s.ports.nb.toNat = 16 := congrArg BitVec.toNat h
    obtain ⟨ru, ri, wu, wi⟩ := nbyte_eq_fixed packSize128_measuresBytes hn (by decide)
    exact ⟨ru .be, ru .le, ri .be, ri .le, wu .be, wu .le, wi .be, wi .le⟩
  · have hn : s.ports.nb.toNat = 2 := congrArg BitVec.toNat h
    exact ⟨readUint_eq_fixedRead hn (by decide) (by decide), readUint_eq_fixedRead hn (by decide) (by decide)⟩
  · have hn : s.ports.nb.toNat = 4 := congrArg BitVec.toNat h
    exact ⟨readUint_eq_fixedRead hn (by decide) (by decide), readUint_eq_fixedRead hn (by decide) (by decide)⟩
  · exact ⟨by decide, rfl, fun h => absurd (congrArg effect h) (by decide),
      fun h => absurd (congrArg effect h) (by decide)⟩
  · exact ⟨by decide, rfl, fun h => absurd (congrArg effect h) (by decide),
      fun h => absurd (congrArg effect h) (by decide)⟩

end Sys2Proof
end

