-- ==== Sys2Proof/Proofs/Float.lean ====
section
/-! PROOFS. The statements of 42_float.md about the floating-point commands. -/

namespace Sys2Proof

open Machine Claims

/-- Settles O6: WR.F32 and WR.F64 are FixedWrite of their widths, and the canonicalizer of the reads has no part in them
(42_float.md R154, R156). -/
theorem floatWritesStoreTheBytes : Obligations.FloatWritesStoreTheBytes :=
  ⟨writesAs_of_fixedWrite rfl fun _ => rfl, writesAs_of_fixedWrite rfl fun _ => rfl,
    writesAs_of_fixedWrite rfl fun _ => rfl, writesAs_of_fixedWrite rfl fun _ => rfl⟩

end Sys2Proof
end

