-- ==== Sys2Proof/Proofs/Ordering.lean ====
section
/-! PROOFS. The statements of 43_ordering_selection.md: the two orderings of a command on reversed slices (R171), and the
assembler's pseudo-orderings (R172, R173). -/

namespace Sys2Proof

open Machine

/-! ### The lane maps on a reversed slice -/

section reversedSlice

variable {s s' : State} {w v : Nat}

/-- Reading a slice whose bytes are reversed reads the reversed list. -/
theorem memRead_eq_reverse (h : ∀ j, j < w → s'.slice j = s.slice (w - 1 - j)) :
    s'.memRead 0 w = (s.memRead 0 w).reverse := by
  refine List.ext_getElem (by simp) fun j hj _ => ?_
  have hj : j < w := by simpa using hj
  simp only [State.memRead, List.getElem_reverse, readBytes_getElem, readBytes_length]
  exact h j hj

theorem packBe_memRead_of_reversed (h : ∀ j, j < w → s'.slice j = s.slice (w - 1 - j)) :
    pack .be (s'.memRead 0 w) = pack .le (s.memRead 0 w) := by
  rw [memRead_eq_reverse h, pack, pack, packBe_reverse]

/-- A value stored big-endian is, byte by byte, the value stored little-endian read from the other end. -/
theorem slice_memWrite_be_eq_le (hm : s.bufmem.wf = true) (hm' : s'.bufmem.wf = true) {j : Nat} (hj : j < w) :
    (s'.memWrite 0 (unpack .be w v)).slice j = (s.memWrite 0 (unpack .le w v)).slice (w - 1 - j) := by
  have hmirror : w - 1 - j < w := by omega
  rw [slice_memWrite_of_lt hm' (by simpa using hj), slice_memWrite_of_lt hm (by simpa using hmirror),
    unpack_getD .be v hj, unpack_getD .le v hmirror, lane, lane]

end reversedSlice

/-- Settles O29: the two orderings have one shape. A fault and the bytes it leaves do not depend on the ordering, a read
packs the same number from the reversed bytes, and a write stores the same number's bytes in reversed places. -/
theorem orderingsDifferOnlyInTheLaneMap : Obligations.OrderingsDifferOnlyInTheLaneMap := by
  intro k w d be le hbe hle s s' t hs' hm hm' hslice ht
  obtain ⟨m, rfl⟩ : ∃ m, s' = { s with bufmem := m } := ⟨_, hs'⟩
  have hacc : s.accepting := (exec_ends ht).1
  have hacc' : ({ s with bufmem := m } : State).accepting := hacc
  cases exec_shape hbe hle s.ports with
  | fault c h =>
    obtain rfl := Host.Outcome.next.inj (ht.symm.trans (h .le s hacc rfl))
    exact ⟨_, h .be _ hacc' rfl, rfl, rfl, hslice⟩
  | read _ _ f h =>
    obtain rfl := Host.Outcome.next.inj (ht.symm.trans (h .le s hacc rfl))
    refine ⟨_, h .be _ hacc' rfl, rfl, ?_, hslice⟩
    rw [packBe_memRead_of_reversed hslice, doneRes_answers, doneRes_answers]
  | write _ _ v h =>
    obtain rfl := Host.Outcome.next.inj (ht.symm.trans (h .le s hacc rfl))
    exact ⟨_, h .be _ hacc' rfl, rfl, rfl, fun j hj => slice_memWrite_be_eq_le hm hm' hj⟩

/-! ### Splitting a mnemonic at its dots -/

section pieces

variable {c : Char}

theorem splitAtEach_ne_nil (l : List Char) : splitAtEach c l ≠ [] := by
  induction l with
  | nil => simp [splitAtEach]
  | cons x xs ih =>
    rw [splitAtEach]
    split
    · exact List.cons_ne_nil _ _
    · split <;> exact List.cons_ne_nil _ _

theorem splitAtEach_of_notMem {l : List Char} (h : c ∉ l) : splitAtEach c l = [l] := by
  induction l with
  | nil => rfl
  | cons x xs ih =>
    obtain ⟨hx, hxs⟩ := not_or.1 (mt List.mem_cons.2 h)
    rw [splitAtEach, ih hxs]
    exact if_neg (Ne.symm hx)

/-- The pieces on either side of a separator are split on their own. -/
theorem splitAtEach_append_cons (xs ys : List Char) :
    splitAtEach c (xs ++ c :: ys) = splitAtEach c xs ++ splitAtEach c ys := by
  induction xs with
  | nil =>
    obtain ⟨p, ps, hys⟩ := List.exists_cons_of_ne_nil (splitAtEach_ne_nil (c := c) ys)
    simp [splitAtEach, hys]
  | cons x xs ih =>
    obtain ⟨p, ps, hxs⟩ := List.exists_cons_of_ne_nil (splitAtEach_ne_nil (c := c) xs)
    by_cases hx : x = c <;> simp [splitAtEach, ih, hxs, hx]

end pieces

/-! ### What a mnemonic's ordering contributes -/

/-- Two spellings of an ordering that name the same one end the same mnemonics (30_encoding.md R71): the ordering is the last
of the three pieces, and the command depends on what it names only. -/
theorem mnemonicText_congr {native native' : ByteOrder} (op o o' : List Char) (ho : '.' ∉ o) (ho' : '.' ∉ o')
    (h : orderText native o = orderText native' o') :
    mnemonicText native (op ++ '.' :: o) = mnemonicText native' (op ++ '.' :: o') := by
  rw [mnemonicText, mnemonicText, splitAtEach_append_cons, splitAtEach_append_cons, splitAtEach_of_notMem ho,
    splitAtEach_of_notMem ho']
  match splitAtEach '.' op with
  | [] | [_] => rfl
  | [_, _] => simp only [List.cons_append, List.nil_append, h]
  | [_, _, _] | _ :: _ :: _ :: _ :: _ => rfl

/-- Settles O46: the two spellings of each pair name one ordering, and the command depends on no more than that. -/
theorem pseudoOrderingsAreAliases : Obligations.PseudoOrderingsAreAliases := fun _ op =>
  ⟨mnemonicText_congr op ['N', 'E', 'T'] ['B', 'E'] (by decide) (by decide) rfl,
    mnemonicText_congr op ['N', 'E'] ['B', 'E'] (by decide) (by decide) rfl,
    mnemonicText_congr op ['N', 'E'] ['L', 'E'] (by decide) (by decide) rfl⟩

end Sys2Proof
end

