-- ==== Sys2Proof/Proofs/Exceptions.lean ====
section
/-! PROOFS. The statements of 60_exceptions.md: what fault entry does (R184), and which of a command's failing checks is
reported (R181 to R183). -/

namespace Sys2Proof

open Machine Claims

/-! ### Fault entry -/

theorem faulted_halted (s : State) (c : Cause) : (faulted s c).halted = true := by
  rw [← raise_eq_faulted, raise_halted]

/-- CAUSE after fault entry is the cause's code (10_state.md R26). -/
theorem statusCause_faultStatus (c : Cause) : statusCause (faultStatus c) = causeCode c := by cases c <;> decide

/-- The answer shows how the command ended: the other two ends answer DONE. -/
theorem eq_faulted_of_answers {i : Instr} {s t : State} {c : Cause} (h : exec i s = .next t)
    (ha : t.answers = s.answers ++ [.response (.fault c)]) : t = faulted s c := by
  obtain ⟨-, ends⟩ := exec_ends h
  cases ends with
  | fault c' ht =>
    rw [ht, raise_answers] at ha
    cases List.append_cancel_left ha
    exact ht.trans (raise_eq_faulted s c)
  | read _ _ v _ ht =>
    rw [ht, doneRes_answers] at ha
    cases List.append_cancel_left ha
  | write _ _ v ht =>
    rw [ht, done_answers, memWrite_answers] at ha
    cases List.append_cancel_left ha

/-- Settles O35: a command that answers FAULT ended in fault entry, which writes STATUS and the answer. -/
theorem faultEntryIsTheWholeEffect : Obligations.FaultEntryIsTheWholeEffect := by
  intro i s t c h ha
  obtain rfl := eq_faulted_of_answers h ha
  have code := congrArg BitVec.toNat (statusCause_faultStatus c)
  exact ⟨rfl, faulted_halted s c, code.trans (by cases c <;> rfl)⟩

/-! ### The checks of a legal command -/

/-- The nbytes check of a request for the command fails (60_exceptions.md R181, cause 2). -/
def nbytesFails (i : Instr) (r : Request) : Prop :=
  i.usesNb = true ∧ (r.nb.toNat < 1 ∨ containerBytes i < r.nb.toNat)

/-- The value check of a request for the command fails (60_exceptions.md R181, cause 3). -/
def valueFails (i : Instr) (r : Request) : Prop :=
  (i.fields.1 = .uint ∧ i.isWrite = true ∧ ¬ unsignedFits (containerBytes i) r) ∨
    (i.fields.1 = .int ∧ i.isWrite = true ∧ ¬ signedFits (containerBytes i) r)

/-- The length check of a request for the command fails (60_exceptions.md R181, cause 4). -/
def lengthFails (i : Instr) (r : Request) : Prop := r.len.val < i.accessWidth r.nb

/-- An outcome that is DONE: a next state with STATUS as it was and a DONE response. -/
def Completes (s : State) (o : Host.Outcome State Fault Refusal) : Prop :=
  ∃ t, o = .next t ∧ t.status = s.status ∧
    (t.answers = s.answers ++ [.response .done] ∨ ∃ v, t.answers = s.answers ++ [.response (.doneRes v)])

/-- An outcome of a legal command is the fault of its first failing check, or DONE when none fails (60_exceptions.md R183). -/
structure ReportsFirst (i : Instr) (s : State) (o : Host.Outcome State Fault Refusal) : Prop where
  nbytes : nbytesFails i s.ports → o = .next (faulted s .nbytesRange)
  value : ¬ nbytesFails i s.ports → valueFails i s.ports → o = .next (faulted s .valueRange)
  length : ¬ nbytesFails i s.ports → ¬ valueFails i s.ports → lengthFails i s.ports → o = .next (faulted s .shortBuf)
  completes : ¬ nbytesFails i s.ports → ¬ valueFails i s.ports → ¬ lengthFails i s.ports → Completes s o

/-- What a legal command reports is the first fault of its request. -/
theorem ReportsFirst.reports_firstFault {i : Instr} {s : State} {o : Host.Outcome State Fault Refusal}
    (h : ReportsFirst i s o) (hd : decode s.ports.cmd = .ok i) :
    (∀ c, firstFault s.ports = some c → o = .next (faulted s c)) ∧ (firstFault s.ports = none → Completes s o) := by
  simp only [firstFault, hd]
  split_ifs with hn hu hs hl
  · exact ⟨fun _ hc => Option.some.inj hc ▸ h.nbytes hn, nofun⟩
  · exact ⟨fun _ hc => Option.some.inj hc ▸ h.value hn (.inl hu), nofun⟩
  · exact ⟨fun _ hc => Option.some.inj hc ▸ h.value hn (.inr hs), nofun⟩
  · exact ⟨fun _ hc => Option.some.inj hc ▸ h.length hn (not_or.2 ⟨hu, hs⟩) hl, nofun⟩
  · exact ⟨nofun, fun _ => h.completes hn (not_or.2 ⟨hu, hs⟩) hl⟩

section checks

variable {i : Instr} {s : State} {r : Request} {w n c : Nat} {ord : ByteOrder} {size : Nat → Nat}

theorem not_nbytesFails (hu : i.usesNb = false) : ¬ nbytesFails i r := by simp [nbytesFails, hu]

theorem nbytesFails_iff (hu : i.usesNb = true) (hc : containerBytes i = c) :
    nbytesFails i r ↔ r.nb.toNat < 1 ∨ c < r.nb.toNat := by simp [nbytesFails, hu, hc]

theorem nbytes_legal (hu : i.usesNb = true) (hc : containerBytes i = c) (hn : ¬ nbytesFails i r) :
    1 ≤ r.nb.toNat ∧ r.nb.toNat ≤ c := by
  rw [nbytesFails_iff hu hc] at hn
  omega

/-- A read has no value check. -/
theorem not_valueFails_of_read (hr : i.isWrite = false) : ¬ valueFails i r := by simp [valueFails, hr]

/-- A command that reads no NB has no value check. -/
theorem not_valueFails_of_fixed (hu : i.usesNb = false) : ¬ valueFails i r := by
  rintro (⟨hk, -⟩ | ⟨hk, -⟩) <;> simp [Instr.usesNb, hk] at hu

theorem valueFails_iff_of_uint (hk : i.fields.1 = .uint) (hw : i.isWrite = true) (hc : containerBytes i = c) :
    valueFails i r ↔ ¬ unsignedFits c r := by simp [valueFails, hk, hw, hc]

theorem valueFails_iff_of_int (hk : i.fields.1 = .int) (hw : i.isWrite = true) (hc : containerBytes i = c) :
    valueFails i r ↔ ¬ signedFits c r := by simp [valueFails, hk, hw, hc]

theorem lengthFails_iff_of_nbyte (hu : i.usesNb = true) : lengthFails i r ↔ r.len.val < r.nb.toNat := by
  rw [lengthFails, Instr.accessWidth, if_pos hu]

/-! ### Each family reports its first failing check -/

/-- A fixed-width read has the length check only. -/
theorem read_reportsFirst {f : Nat → Value} (hs : s.accepting) (hu : i.usesNb = false)
    (hw : i.accessWidth s.ports.nb = w) (he : exec i s = commandStep (readAccess w ord f) s) :
    ReportsFirst i s (exec i s) := by
  subst hw
  rw [he, commandStep_accepting hs]
  exact {
    nbytes := fun hn => absurd hn (not_nbytesFails hu)
    value := fun _ hv => absurd hv (not_valueFails_of_fixed hu)
    length := fun _ _ hl => congrArg _ (readAccess_of_lt hl)
    completes := fun _ _ hl => ⟨_, congrArg _ (readAccess_of_le (not_lt.1 hl)), rfl, .inr ⟨_, rfl⟩⟩ }

/-- A fixed-width write has the length check only (40_fixed_int.md R82: every pattern is writable). -/
theorem write_reportsFirst (hs : s.accepting) (hu : i.usesNb = false) (hw : i.accessWidth s.ports.nb = n / 8)
    (he : exec i s = fixedWrite n ord s) : ReportsFirst i s (exec i s) := by
  rw [he]
  exact {
    nbytes := fun hn => absurd hn (not_nbytesFails hu)
    value := fun _ hv => absurd hv (not_valueFails_of_fixed hu)
    length := fun _ _ hl => fixedWrite_of_lt hs (hw ▸ hl)
    completes := fun _ _ hl => ⟨_, fixedWrite_of_le hs (hw ▸ not_lt.1 hl), rfl, .inl rfl⟩ }

/-- An n-byte read has the nbytes check and the length check (41_nbyte_int.md R126, R127). -/
theorem nbyteRead_reportsFirst {result : Nat → Nat → Value} (hs : s.accepting) (hu : i.usesNb = true)
    (hr : i.isWrite = false) (hc : containerBytes i = c) (he : exec i s = nbyteRead c ord result s) :
    ReportsFirst i s (exec i s) := by
  rw [he]
  refine ⟨fun hn => ?_, fun _ hv => absurd hv (not_valueFails_of_read hr), fun hn _ hl => ?_, fun hn _ hl => ?_⟩
  · exact nbyteCommand_of_illegal hs ((nbytesFails_iff hu hc).1 hn)
  · obtain ⟨h1, hle⟩ := nbytes_legal hu hc hn
    rw [lengthFails_iff_of_nbyte hu] at hl
    rw [nbyteRead, nbyteCommand_of_legal rfl h1 hle, commandStep_accepting hs, readAccess_of_lt hl]
  · obtain ⟨h1, hle⟩ := nbytes_legal hu hc hn
    rw [lengthFails_iff_of_nbyte hu, not_lt] at hl
    exact ⟨_, nbyteRead_of_legal hs h1 hle hl, rfl, .inr ⟨_, rfl⟩⟩

theorem readUint_reportsFirst (hs : s.accepting) (hu : i.usesNb = true) (hr : i.isWrite = false)
    (hc : containerBytes i = c) (he : exec i s = readUint c ord s) : ReportsFirst i s (exec i s) :=
  nbyteRead_reportsFirst hs hu hr hc he

theorem readInt_reportsFirst (hs : s.accepting) (hu : i.usesNb = true) (hr : i.isWrite = false)
    (hc : containerBytes i = c) (he : exec i s = readInt c ord s) : ReportsFirst i s (exec i s) :=
  nbyteRead_reportsFirst hs hu hr hc he

theorem readFloat_reportsFirst (hs : s.accepting) (hu : i.usesNb = true) (hr : i.isWrite = false)
    (hc : containerBytes i = 8) (he : exec i s = readFloat ord s) : ReportsFirst i s (exec i s) :=
  nbyteRead_reportsFirst hs hu hr hc he

/-- An n-byte write has the three checks in this order; what `fits` says of an illegal NB does not matter
(41_nbyte_int.md R127). -/
theorem nbyteWrite_reportsFirst {fits : Nat → State → Bool} {v : Nat → State → Nat} (hs : s.accepting)
    (hu : i.usesNb = true) (hc : containerBytes i = c) (he : exec i s = nbyteWrite c ord fits v s)
    (hfits : 1 ≤ s.ports.nb.toNat → s.ports.nb.toNat ≤ c →
      (valueFails i s.ports ↔ ¬ fits s.ports.nb.toNat s = true)) :
    ReportsFirst i s (exec i s) := by
  rw [he]
  refine ⟨fun hn => nbyteCommand_of_illegal hs ((nbytesFails_iff hu hc).1 hn), fun hn hv => ?_, fun hn hv hl => ?_,
    fun hn hv hl => ?_⟩
  all_goals
    obtain ⟨h1, hle⟩ := nbytes_legal hu hc hn
    rw [hfits h1 hle] at hv
  · exact nbyteWrite_of_misfit hs h1 hle hv
  · exact nbyteWrite_of_fit_of_lt hs h1 hle (not_not.1 hv) ((lengthFails_iff_of_nbyte hu).1 hl)
  · rw [lengthFails_iff_of_nbyte hu, not_lt] at hl
    exact ⟨_, nbyteWrite_of_fit_of_le hs h1 hle (not_not.1 hv) hl, rfl, .inl rfl⟩

theorem writeUint_reportsFirst (hsize : MeasuresBytes c size) (hs : s.accepting) (hk : i.fields.1 = .uint)
    (hw : i.isWrite = true) (hc : containerBytes i = c) (he : exec i s = writeUint c size ord s) :
    ReportsFirst i s (exec i s) :=
  nbyteWrite_reportsFirst hs (by rw [Instr.usesNb, hk]) hc he fun h1 hle =>
    (valueFails_iff_of_uint hk hw hc).trans
      (not_congr (decide_eq_true_iff.trans (size_le_iff_unsignedFits hsize s h1 hle))).symm

theorem writeInt_reportsFirst (hs : s.accepting) (hk : i.fields.1 = .int) (hw : i.isWrite = true)
    (hc : containerBytes i = c) (he : exec i s = writeInt c ord s) : ReportsFirst i s (exec i s) :=
  nbyteWrite_reportsFirst hs (by rw [Instr.usesNb, hk]) hc he fun h1 hle =>
    (valueFails_iff_of_int hk hw hc).trans
      (not_congr (fitsSigned_iff_range (s.valueOperand (8 * c)) h1 hle)).symm

end checks

/-- The fields of a command name its row of the table (30_encoding.md R66). -/
theorem instrOfFields_fields (i : Instr) :
    instrOfFields i.fields.1 i.fields.2.1 i.fields.2.2.1 i.fields.2.2.2 = .ok i := by
  cases i <;> rfl

/-- The command of each tuple of fields reports its first failing check. -/
theorem exec_reportsFirst_of_fields {k : Kind} {w : WidthSel} {d : Direction} {o : ByteOrder} {i : Instr} {s : State}
    (hi : instrOfFields k w d o = .ok i) (hs : s.accepting) : ReportsFirst i s (exec i s) := by
  cases k
  case u | i | f =>
    cases d
    case rd => cases w <;> cases o <;> cases hi <;> exact read_reportsFirst hs rfl rfl rfl
    case wr => cases w <;> cases o <;> cases hi <;> exact write_reportsFirst hs rfl rfl rfl
  case float =>
    cases d <;> cases w <;> cases o <;> cases hi <;> exact readFloat_reportsFirst hs rfl rfl rfl rfl
  case uint =>
    cases d
    case rd => cases w <;> cases o <;> cases hi <;> exact readUint_reportsFirst hs rfl rfl rfl rfl
    case wr =>
      cases w
      case w16 | w32 => cases hi
      case w64 => cases o <;> cases hi <;> exact writeUint_reportsFirst packSize_measuresBytes hs rfl rfl rfl rfl
      case w128 => cases o <;> cases hi <;> exact writeUint_reportsFirst packSize128_measuresBytes hs rfl rfl rfl rfl
  case int =>
    cases d
    case rd => cases w <;> cases o <;> cases hi <;> exact readInt_reportsFirst hs rfl rfl rfl rfl
    case wr => cases w <;> cases o <;> cases hi <;> exact writeInt_reportsFirst hs rfl rfl rfl rfl

theorem exec_reportsFirst (i : Instr) {s : State} (hs : s.accepting) : ReportsFirst i s (exec i s) :=
  exec_reportsFirst_of_fields (instrOfFields_fields i) hs

/-! ### The step of a presented command -/

section presented

variable {s : State} {r : Request} {rest : List HostMove}

theorem step_legal {i : Instr} (hp : s.pending = .command r :: rest) (hh : s.halted = false)
    (hd : decode r.cmd = .ok i) : step s = exec i { s with pending := rest, ports := r } :=
  (step_pending hp).trans (present_legal (s := { s with pending := rest }) hh hd)

theorem step_illegal {e : IllegalReason} (hp : s.pending = .command r :: rest) (hh : s.halted = false)
    (hd : decode r.cmd = .error e) : step s = .next (faulted { s with pending := rest, ports := r } .illegalCmd) := by
  rw [← raise_eq_faulted]
  exact (step_pending hp).trans (present_illegal (s := { s with pending := rest }) hh hd)

theorem firstFault_illegal {e : IllegalReason} (hd : decode r.cmd = .error e) : firstFault r = some .illegalCmd := by
  simp [firstFault, hd]

end presented

/-- Settles O36: an illegal byte faults at the step, and a legal command makes the other three checks in their order. -/
theorem firstFailingCheckIsReported : Obligations.FirstFailingCheckIsReported := by
  intro s r rest hp hh hwin
  cases hd : decode r.cmd with
  | error e =>
    rw [firstFault_illegal hd, step_illegal hp hh hd]
    exact ⟨fun _ hc => Option.some.inj hc ▸ rfl, nofun⟩
  | ok i =>
    have accepted : ({ s with pending := rest, ports := r } : State).accepting := ⟨hh, hwin⟩
    rw [step_legal hp hh hd]
    exact (exec_reportsFirst i accepted).reports_firstFault hd

end Sys2Proof
end

