-- ==== Sys2Proof/Proofs/Reset.lean ====
section
/-! PROOFS. The statement of 70_reset_and_hazards.md about the reset move (R210): its whole effect, and that the block runs
after it. -/

namespace Sys2Proof

open Machine

theorem step_reset {s : State} {rest : List HostMove} (hp : s.pending = .reset :: rest) :
    step s = .next (State.resetEvent { s with pending := rest }) := step_pending hp

/-- The block is running after the reset event, whatever its STATUS was (70_reset_and_hazards.md R210). -/
@[simp] theorem resetEvent_halted (s : State) : s.resetEvent.halted = false := by
  rw [halted_eq, resetEvent_status]
  decide

/-- Settles O39: the reset event clears STATUS and nothing else, so the block is running when the next command comes. -/
theorem resetMoveClearsStatusOnly : Obligations.ResetMoveClearsStatusOnly := by
  intro s rest hp
  refine ⟨step_reset hp, fun r rest' i hnext hd => ?_⟩
  have running : (State.resetEvent { s with pending := rest }).halted = false := resetEvent_halted _
  exact step_legal hnext running hd

end Sys2Proof
end

