-- ==== Sys2Proof/Proofs/Encoding.lean ====
section
/-! PROOFS. The statements of 30_encoding.md. A command byte and the tuple of its fields determine each other (R60 to R65),
and so do a tuple of the table and its command (R66); the decoder and the encoder are built from these two. -/

namespace Sys2Proof

open Machine Claims

/-! ### The fields of a command byte by their codes -/

theorem kindCode_lt (k : Kind) : kindCode k < 8 := by cases k <;> decide

theorem widthSelCode_lt (w : WidthSel) : widthSelCode w < 4 := by cases w <;> decide

theorem directionCode_lt (d : Direction) : directionCode d < 2 := by cases d <;> decide

theorem orderCode_lt (o : ByteOrder) : orderCode o < 2 := by cases o <;> decide

/-- Z is 0 exactly for the bytes below 0x80 (30_encoding.md R65). -/
theorem fieldZ_eq_false_iff (cmd : Byte) : fieldZ cmd = false ↔ cmd.toNat < 128 := by
  have hlt := cmd.isLt
  have bit : fieldZ cmd = cmd.toNat.testBit 7 := rfl
  rw [bit, Nat.testBit_eq_decide_div_mod_eq, decide_eq_false_iff_not]
  omega

theorem fieldKind_eq_some_iff (cmd : Byte) (k : Kind) : fieldKind cmd = some k ↔ cmd.toNat / 16 % 8 = kindCode k := by
  have code : (cmd.extractLsb' 4 3).toNat = cmd.toNat / 16 % 8 := by
    rw [BitVec.extractLsb'_toNat, Nat.shiftRight_eq_div_pow]
  have hlt : cmd.toNat / 16 % 8 < 8 := Nat.mod_lt _ (by decide)
  rw [fieldKind, code]
  generalize cmd.toNat / 16 % 8 = n at hlt
  interval_cases n <;> cases k <;> decide

theorem fieldWidthSel_eq_iff (cmd : Byte) (w : WidthSel) :
    fieldWidthSel cmd = w ↔ cmd.toNat / 4 % 4 = widthSelCode w := by
  have code : (cmd.extractLsb' 2 2).toNat = cmd.toNat / 4 % 4 := by
    rw [BitVec.extractLsb'_toNat, Nat.shiftRight_eq_div_pow]
  have hlt : cmd.toNat / 4 % 4 < 4 := Nat.mod_lt _ (by decide)
  rw [fieldWidthSel, code]
  generalize cmd.toNat / 4 % 4 = n at hlt
  interval_cases n <;> cases w <;> decide

theorem fieldDirection_eq_iff (cmd : Byte) (d : Direction) :
    fieldDirection cmd = d ↔ cmd.toNat / 2 % 2 = directionCode d := by
  have bit : cmd.getLsbD 1 = decide (cmd.toNat / 2 % 2 = 1) := Nat.testBit_eq_decide_div_mod_eq
  rw [fieldDirection, bit]
  cases d <;> simp [directionCode]

theorem fieldOrder_eq_iff (cmd : Byte) (o : ByteOrder) : fieldOrder cmd = o ↔ cmd.toNat % 2 = orderCode o := by
  have bit : cmd.getLsbD 0 = decide (cmd.toNat % 2 = 1) := by
    rw [BitVec.getLsbD, Nat.testBit_eq_decide_div_mod_eq, Nat.pow_zero, Nat.div_one]
  rw [fieldOrder, bit]
  cases o <;> simp [orderCode]

/-- The byte of a tuple is the one byte that has its fields and Z = 0 (30_encoding.md R60). -/
theorem encodeFields_eq_iff (k : Kind) (w : WidthSel) (d : Direction) (o : ByteOrder) (cmd : Byte) :
    encodeFields k w d o = cmd ↔
      fieldZ cmd = false ∧ fieldKind cmd = some k ∧ fieldWidthSel cmd = w ∧ fieldDirection cmd = d ∧
        fieldOrder cmd = o := by
  rw [fieldZ_eq_false_iff, fieldKind_eq_some_iff, fieldWidthSel_eq_iff, fieldDirection_eq_iff, fieldOrder_eq_iff,
    BitVec.toNat_eq, encodeFields, BitVec.toNat_ofNat]
  have hk := kindCode_lt k
  have hw := widthSelCode_lt w
  have hd := directionCode_lt d
  have ho := orderCode_lt o
  have hcmd := cmd.isLt
  omega

/-- A tuple names a command exactly when it is that command's row of the table (30_encoding.md R66). -/
theorem instrOfFields_eq_ok_iff (k : Kind) (w : WidthSel) (d : Direction) (o : ByteOrder) (i : Instr) :
    instrOfFields k w d o = .ok i ↔ i.fields = (k, w, d, o) := by
  constructor
  · intro h
    cases k <;> cases w <;> cases d <;> cases o <;> cases h <;> rfl
  · intro h
    have row := instrOfFields_fields i
    rwa [h] at row

/-! ### The decoder -/

/-- The decoder passes its checks exactly for a byte with Z = 0 whose fields name a command the implementation has. -/
theorem decodeWith_eq_ok_iff_fields (ext128 : Bool) (cmd : Byte) (i : Instr) :
    decodeWith ext128 cmd = .ok i ↔
      fieldZ cmd = false ∧
        (∃ k, fieldKind cmd = some k ∧
          instrOfFields k (fieldWidthSel cmd) (fieldDirection cmd) (fieldOrder cmd) = .ok i) ∧
        i.wellFormed ext128 = true := by
  unfold decodeWith
  cases fieldZ cmd with
  | true => simp
  | false =>
    cases fieldKind cmd with
    | none => simp
    | some k =>
      cases hi : instrOfFields k (fieldWidthSel cmd) (fieldDirection cmd) (fieldOrder cmd) with
      | error e => simp [hi]
      | ok j =>
        cases hj : j.wellFormed ext128 <;> simpa [hi, hj] using fun h : j = i => h ▸ hj

/-- The decoder is the inverse of the encoder, on the commands the implementation has (30_encoding.md R70). -/
theorem decodeWith_eq_ok_iff (ext128 : Bool) (cmd : Byte) (i : Instr) :
    decodeWith ext128 cmd = .ok i ↔ encode i = cmd ∧ i.wellFormed ext128 = true := by
  rw [decodeWith_eq_ok_iff_fields, encode, encodeFields_eq_iff]
  simp only [instrOfFields_eq_ok_iff, Prod.ext_iff]
  constructor
  · rintro ⟨hz, ⟨k, hk, rfl, hw, hd, ho⟩, hwf⟩
    exact ⟨⟨hz, hk, hw.symm, hd.symm, ho.symm⟩, hwf⟩
  · rintro ⟨⟨hz, hk, hw, hd, ho⟩, hwf⟩
    exact ⟨hz, ⟨_, hk, rfl, hw.symm, hd.symm, ho.symm⟩, hwf⟩

/-- Settles O42: a byte decodes to a command exactly when it is the command's byte and the implementation has it. -/
theorem decodeAndEncodeAgree : Obligations.DecodeAndEncodeAgree :=
  ⟨fun ext128 i hi => (decodeWith_eq_ok_iff ext128 _ i).2 ⟨rfl, hi⟩,
    fun ext128 cmd i h => (decodeWith_eq_ok_iff ext128 cmd i).1 h⟩

/-- Settles O43, over the 256 bytes: the decoder accepts one exactly when it is listed. -/
theorem exactlyTheTableBytesAreLegal : Obligations.ExactlyTheTableBytesAreLegal := by
  have table : ∀ cmd : Byte, (decode cmd).isOk = true ↔ cmd.toNat ∈ legalBytes := by decide
  intro cmd
  rw [← table cmd]
  cases decode cmd <;> simp [Except.isOk, Except.toBool]

/-- Settles O44, over the 256 bytes: only the commands with WSEL = 3 need EXT128. -/
theorem withoutExt128SixteenMoreBytesAreIllegal : Obligations.WithoutExt128SixteenMoreBytesAreIllegal := by
  unfold Obligations.WithoutExt128SixteenMoreBytesAreIllegal
  decide

/-- Settles O45, by running the decoder on the eight words. -/
theorem tableWordsDecode : Obligations.TableWordsDecode := by
  unfold Obligations.TableWordsDecode
  decide

end Sys2Proof
end

