-- ==== Sys2Proof/Proofs/Commands.lean ====
section
/-! PROOFS. The statements about every command and every step: the one response (10_state.md R22), the bytes a command leaves
alone (20_memory.md R45 to R47), the halted state (60_exceptions.md R186), the host's moves (70_reset_and_hazards.md R216),
and the invariant that every step keeps. -/

namespace Sys2Proof

open Machine Claims

/-! ### What a command that gives a next state keeps -/

section exec

variable {i : Instr} {s t : State}

/-- A command leaves BUFSZ, the ports and the host's moves alone. -/
theorem exec_frame (h : exec i s = .next t) : t.bufsz = s.bufsz ∧ t.ports = s.ports ∧ t.pending = s.pending := by
  obtain ⟨-, ends⟩ := exec_ends h
  cases ends with
  | fault _ ht | read _ _ _ _ ht | write _ _ _ ht => subst ht; exact ⟨rfl, rfl, rfl⟩

/-- A command answers once. -/
theorem exec_answers (h : exec i s = .next t) : ∃ r, t.answers = s.answers ++ [.response r] := by
  obtain ⟨-, ends⟩ := exec_ends h
  cases ends with
  | fault _ ht | read _ _ _ _ ht | write _ _ _ ht => subst ht; exact ⟨_, rfl⟩

/-- Only a write that completed changes BUFMEM. -/
theorem exec_bufmem (h : exec i s = .next t) :
    t.bufmem = s.bufmem ∨
    (i.isWrite = true ∧ t.halted = false ∧ i.accessWidth s.ports.nb ≤ s.ports.len.val ∧
      ∃ v, t.bufmem = s.bufmem.writeBytes s.ports.base.val (unpack i.fields.2.2.2 (i.accessWidth s.ports.nb) v)) := by
  obtain ⟨⟨running, -⟩, ends⟩ := exec_ends h
  cases ends with
  | fault _ ht | read _ _ _ _ ht => subst ht; exact .inl rfl
  | write hw hl v ht => subst ht; exact .inr ⟨hw, running, hl, v, rfl⟩

/-- A byte outside [BASE, BASE + W) reads as before (20_memory.md R45). -/
theorem exec_read_outside (h : exec i s = .next t) (hm : s.bufmem.wf = true) (a : Nat)
    (ha : a < s.ports.base.val ∨ s.ports.base.val + i.accessWidth s.ports.nb ≤ a) :
    t.bufmem.read a = s.bufmem.read a := by
  rcases exec_bufmem h with same | ⟨-, -, -, v, written⟩
  · rw [same]
  · rw [written, read_writeBytes _ _ _ hm, if_neg (by rw [unpack_length]; omega)]

theorem exec_bufmem_of_read (h : exec i s = .next t) (hr : i.isWrite = false) : t.bufmem = s.bufmem :=
  (exec_bufmem h).resolve_right fun ⟨hw, _⟩ => absurd (hr.symm.trans hw) Bool.false_ne_true

theorem exec_bufmem_of_halted (h : exec i s = .next t) (hh : t.halted = true) : t.bufmem = s.bufmem :=
  (exec_bufmem h).resolve_right fun ⟨_, running, _⟩ => absurd (running.symm.trans hh) Bool.false_ne_true

/-- Settles O32: an accepted command ends in one of three ways, each with one response. -/
theorem everyCommandAnswersOnce : Obligations.EveryCommandAnswersOnce := by
  intro i s hs
  obtain ⟨t, ht, ends⟩ := exec_accepting i hs
  cases ends with
  | fault c h => subst h; exact ⟨_, _, ht, rfl, nofun, nofun, fun _ _ => rfl⟩
  | read hr _ v hv h =>
    subst h
    exact ⟨_, _, ht, rfl, nofun, fun _ he => Response.doneRes.inj he ▸ ⟨hr, hv⟩, nofun⟩
  | write hw _ v h => subst h; exact ⟨_, _, ht, rfl, fun _ => hw, nofun, nofun⟩

/-- Settles O34: the window is checked at the gate, which every command passes. -/
theorem windowOutsideBufmemIsRefused : Obligations.WindowOutsideBufmemIsRefused := by
  intro i s running outside
  obtain ⟨body, hb⟩ := exec_is_gated i
  rw [hb, commandStep_badWindow running outside]

theorem exec_halted (i : Instr) (hh : s.halted = true) : exec i s = .fault .halted := by
  obtain ⟨body, hb⟩ := exec_is_gated i
  rw [hb, commandStep_halted hh]

end exec

/-! ### The step of each move -/

section moves

variable {s : State} {r : Request} {rest : List HostMove} {a : Nat}

theorem step_ignored (hp : s.pending = .command r :: rest) (hh : s.halted = true) :
    step s = .next { s with pending := rest } :=
  (step_pending hp).trans (present_halted (s := { s with pending := rest }) hh)

theorem step_readStatus (hp : s.pending = .readStatus :: rest) :
    step s = .next { s with pending := rest, answers := s.answers ++ [.status s.status] } := step_pending hp

theorem step_readByte (hp : s.pending = .readByte a :: rest) (ha : a < s.bufsz) :
    step s = .next { s with pending := rest, answers := s.answers ++ [.byte (s.bufmem.read a)] } :=
  (step_pending hp).trans (if_pos ha)

theorem step_readByte_outside (hp : s.pending = .readByte a :: rest) (ha : s.bufsz ≤ a) :
    step s = .refused .addressOutsideBufmem :=
  (step_pending hp).trans (if_neg (not_lt.2 ha))

theorem step_writeByte {b : Byte} (hp : s.pending = .writeByte a b :: rest) (ha : a < s.bufsz) :
    step s = .next { s with pending := rest, bufmem := s.bufmem.write a b } :=
  (step_pending hp).trans (if_pos ha)

theorem step_writeByte_outside {b : Byte} (hp : s.pending = .writeByte a b :: rest) (ha : s.bufsz ≤ a) :
    step s = .refused .addressOutsideBufmem :=
  (step_pending hp).trans (if_neg (not_lt.2 ha))

theorem decode_of_decodeTableWord {nbits w : Nat} {i : Instr} (h : decodeTableWord nbits w = some i) :
    decode (BitVec.ofNat 8 (w % 2 ^ nbits)) = .ok i := by
  unfold decodeTableWord at h
  split at h
  · next hd => rw [hd, Option.some.inj h]
  · cases h

end moves

/-- Settles O47: a running block executes the presented command's meaning, and without a move nothing happens. -/
theorem stepRunsTheDecodedCommand : Obligations.StepRunsTheDecodedCommand :=
  ⟨fun _ _ _ _ hp hh hd => step_legal hp hh hd, fun _ hp => step_idle hp⟩

/-- Settles O48: the move that withFetchWord puts in front presents the byte of the table word. -/
theorem fetchWordRunsNext : Obligations.FetchWordRunsNext := fun s nbits w _ hh hd =>
  step_legal (s := s.withFetchWord nbits w) rfl hh (decode_of_decodeTableWord hd)

/-- Settles O37: a byte that is not listed does not decode, and the decoder comes before every other check. -/
theorem illegalBytesFaultFirst : Obligations.IllegalBytesFaultFirst := by
  intro s r rest hp hh hbyte
  cases hd : decode r.cmd with
  | error e => exact step_illegal hp hh hd
  | ok i => exact absurd ((exactlyTheTableBytesAreLegal r.cmd).1 ⟨i, hd⟩) hbyte

/-- Settles O38: the gate stops every command, each of the host's other moves is as in a running block, and what changes
STATUS but the reset needs a running block. -/
theorem haltedBlockExecutesNothing : Obligations.HaltedBlockExecutesNothing := by
  intro s hh
  refine ⟨fun i => exec_halted i hh, fun _ _ hp => step_ignored hp hh, fun _ hp => step_readStatus hp,
    fun _ _ hp ha => step_readByte hp ha, fun _ _ _ hp ha => step_writeByte hp ha, fun t ht changed => ?_⟩
  rcases (step_status ht).resolve_left changed with ⟨rest, hp, -⟩ | ⟨_, _, _, -, running, -⟩
  · exact ⟨rest, hp⟩
  · exact absurd (running.symm.trans hh) Bool.false_ne_true

/-- Settles O52: the two moves of the host check the address, and BUFMEM reads as its laws say. -/
theorem hostReadsAndWritesBufmem : Obligations.HostReadsAndWritesBufmem := fun _ a _ hm =>
  ⟨fun hp => ⟨step_readByte hp, step_readByte_outside hp⟩, fun b hp =>
    ⟨fun ha => ⟨_, step_writeByte hp ha, rfl, read_write_self a b hm, fun _ hne => read_write_other b hm hne⟩,
      step_writeByte_outside hp⟩⟩

/-- Settles O33: a presented command is ignored, executed or illegal, and only the executed one can write. -/
theorem commandsTouchOnlyTheirOwnBytes : Obligations.CommandsTouchOnlyTheirOwnBytes := by
  intro s t r rest hp hm ht
  cases hh : s.halted with
  | true =>
    obtain rfl := Host.Outcome.next.inj ((step_ignored hp hh).symm.trans ht)
    exact ⟨fun _ _ => ⟨fun _ _ => rfl, fun _ => rfl⟩, fun _ => rfl, fun _ => rfl⟩
  | false =>
    cases hd : decode r.cmd with
    | error e =>
      obtain rfl := Host.Outcome.next.inj ((step_illegal hp hh hd).symm.trans ht)
      exact ⟨nofun, fun _ => rfl, fun _ => rfl⟩
    | ok i =>
      have he := (step_legal hp hh hd).symm.trans ht
      have outside := exec_read_outside he hm
      have reads := exec_bufmem_of_read he
      have faults := exec_bufmem_of_halted he
      exact ⟨fun j hj => Except.ok.inj hj ▸ ⟨outside, reads⟩, nofun, faults⟩

/-- Settles O51: every move keeps BUFSZ and gives at most one answer, and a command at most one. -/
theorem stepTakesOneHostMove : Obligations.StepTakesOneHostMove := by
  intro s t h
  cases step_ends h with
  | idle hp ht => subst ht; exact ⟨rfl, by rw [hp]; rfl, [], by decide, by simp⟩
  | ignored _ _ hp _ ht | writeByte _ _ _ hp _ ht | reset _ hp ht =>
    subst ht; exact ⟨rfl, by rw [hp]; rfl, [], by decide, by simp⟩
  | illegal _ _ _ hp _ _ ht | readByte _ _ hp _ ht | readStatus _ hp ht =>
    subst ht; exact ⟨rfl, by rw [hp]; rfl, [_], le_rfl, rfl⟩
  | executed r rest i hp _ _ he =>
    obtain ⟨hsz, -, hpend⟩ := exec_frame he
    obtain ⟨a, ha⟩ := exec_answers he
    exact ⟨hsz, by rw [hpend, hp]; rfl, [_], le_rfl, ha⟩

/-! ### The invariant -/

/-- The parts of the invariant. -/
structure Sound (s : State) : Prop where
  status : statusLegal s.status = true
  canonical : s.bufmem.wf = true
  inside : s.bufmem.inside s.bufsz = true
  bufsz_pos : 1 ≤ s.bufsz
  bufsz_le : s.bufsz ≤ Config.maxBufSize

theorem state_wf_iff (s : State) : s.wf = true ↔ Sound s := by
  simp only [State.wf, Bool.and_eq_true, decide_eq_true_eq]
  exact ⟨fun ⟨⟨⟨⟨h1, h2⟩, h3⟩, h4⟩, h5⟩ => ⟨h1, h2, h3, h4, h5⟩,
    fun ⟨h1, h2, h3, h4, h5⟩ => ⟨⟨⟨⟨h1, h2⟩, h3⟩, h4⟩, h5⟩⟩

theorem statusOfFault_legal (c : Cause) : statusLegal (statusOfFault c) = true := by cases c <;> decide

section invariant

variable {s t : State}

/-- The invariant speaks of STATUS, BUFMEM and BUFSZ only. -/
theorem Sound.congr (h : Sound s) (hst : t.status = s.status) (hm : t.bufmem = s.bufmem) (hn : t.bufsz = s.bufsz) :
    Sound t := by
  obtain ⟨h1, h2, h3, h4, h5⟩ := h
  rw [← hst] at h1
  rw [← hm] at h2 h3
  rw [← hn] at h3 h4 h5
  exact ⟨h1, h2, h3, h4, h5⟩

theorem Sound.raise (h : Sound s) (c : Cause) : Sound (s.raise c) :=
  { h with status := statusOfFault_legal c }

/-- A write inside BUFMEM keeps the invariant. -/
theorem Sound.memWrite (h : Sound s) {bl : List Byte} (hl : s.ports.base.val + bl.length ≤ s.bufsz) :
    Sound (s.memWrite 0 bl) :=
  { h with
    canonical := writeBytes_wf bl _ h.canonical
    inside := writeBytes_inside bl _ h.inside hl }

/-- A command keeps the invariant: its write stays inside a window that lies in BUFMEM. -/
theorem Sound.exec {i : Instr} (h : Sound s) (he : exec i s = .next t) : Sound t := by
  obtain ⟨⟨-, window⟩, ends⟩ := exec_ends he
  cases ends with
  | fault c ht => subst ht; exact h.raise c
  | read _ _ _ _ ht => subst ht; exact h.congr rfl rfl rfl
  | write _ hl v ht =>
    subst ht
    exact (h.memWrite (by rw [unpack_length]; omega)).congr rfl rfl rfl

theorem Sound.step (h : Sound s) (hstep : step s = .next t) : Sound t := by
  cases step_ends hstep with
  | idle _ ht | ignored _ _ _ _ ht | readByte _ _ _ _ ht | readStatus _ _ ht =>
    subst ht; exact h.congr rfl rfl rfl
  | executed r rest i _ _ _ he => exact (h.congr (t := { s with pending := rest, ports := r }) rfl rfl rfl).exec he
  | illegal r rest _ _ _ _ ht =>
    subst ht; exact (h.congr (t := { s with pending := rest, ports := r }) rfl rfl rfl).raise _
  | writeByte a b rest _ ha ht =>
    subst ht
    exact { h with canonical := write_wf a b h.canonical, inside := write_inside b h.inside ha }
  | reset rest _ ht => subst ht; exact { h with status := rfl }

end invariant

/-- Settles O49, one case per way a step can end. -/
theorem stepKeepsTheInvariant : Obligations.StepKeepsTheInvariant := fun s t hs h =>
  (state_wf_iff t).2 (((state_wf_iff s).1 hs).step h)

/-- Settles O50: BUFMEM lists no byte at reset, and STATUS is clear. -/
theorem resetMeetsTheInvariant : Obligations.ResetMeetsTheInvariant :=
  (state_wf_iff State.reset).2 ⟨rfl, rfl, rfl, by decide, by decide⟩

/-- Settles O40, by reading STATUS at reset. -/
theorem powerUpStatusIsClear : Obligations.PowerUpStatusIsClear := ⟨rfl, rfl, rfl⟩

end Sys2Proof
end

