-- ==== Sys2Proof/Proofs/SignedFit.lean ====
section
/-! PROOFS. The statement of 41_nbyte_int.md about FitsSigned (R125), from the laws of extend_sign and unextend_sign. -/

namespace Sys2Proof

open Machine

/-- Sign extension gives a value back exactly when its bits from 8 NB - 1 up are all equal. -/
theorem extendSign_eq_self_iff {c nb : Nat} (v : BitVec (8 * c)) (h1 : 1 ≤ nb) (hc : nb ≤ c) :
    extendSign c v nb = v ↔ ∀ j, 8 * nb - 1 ≤ j → j < 8 * c → v.getLsbD j = v.getLsbD (8 * nb - 1) := by
  constructor
  · intro h j hlo hj
    have bit := extendSign_getLsbD v h1 hc hj
    rw [h] at bit
    split at bit
    · next hin =>
      obtain rfl : j = 8 * nb - 1 := by omega
      rfl
    · exact bit
  · intro h
    refine BitVec.eq_of_getLsbD_eq fun j hj => ?_
    rw [extendSign_getLsbD v h1 hc hj]
    split
    · rfl
    · exact (h j (by omega) hj).symm

/-- Settles O21: masking first changes nothing, so FitsSigned asks whether sign extension gives the value back. -/
theorem signedFitIsTheSignedRange : Obligations.SignedFitIsTheSignedRange := fun _ _ v h1 hc =>
  ⟨unextendSign_toNat v hc, (fitsSigned_iff_extendSign_eq v h1 hc).trans (extendSign_eq_self_iff v h1 hc),
    fitsSigned_iff_range v h1 hc, fun h => h ▸ fitsSigned_self v⟩

end Sys2Proof
end

