-- ==== Sys2Proof/Proofs/Canonicalizer.lean ====
section
/-! PROOFS. The statements of 42_float.md about the NaN canonicalizer (R151, R152). Its laws are proved once, for a pattern
with `e` exponent bits above a mantissa whose top bit, bit `q`, is the quiet bit; binary32 has e = 8 and q = 22, binary64
has e = 11 and q = 51 (R150). -/

namespace Sys2Proof

open Machine Claims

/-- A signaling NaN: exponent all ones, mantissa nonzero, quiet bit clear (42_float.md R151). -/
def IsSignaling (e q : Nat) {w : Nat} (b : BitVec w) : Prop :=
  b.extractLsb' (q + 1) e = BitVec.allOnes e ∧ b.extractLsb' 0 (q + 1) ≠ 0#(q + 1) ∧ b.getLsbD q = false

/-- The pattern `b` canonicalized is `b'`: a signaling NaN gets its quiet bit set (42_float.md R151). -/
structure Canonicalizes (e q : Nat) {w : Nat} (b b' : BitVec w) : Prop where
  signaling : IsSignaling e q b → b' = b ||| BitVec.twoPow w q
  other : ¬ IsSignaling e q b → b' = b

section laws

variable {e q w : Nat} {b b' : BitVec w}

/-- A signaling NaN in arithmetic on the pattern (42_float.md R150, R151). -/
theorem isSignaling_iff (e q : Nat) (b : BitVec w) :
    IsSignaling e q b ↔
      b.toNat / 2 ^ (q + 1) % 2 ^ e = 2 ^ e - 1 ∧ b.toNat % 2 ^ (q + 1) ≠ 0 ∧ b.toNat % 2 ^ (q + 1) < 2 ^ q := by
  have low : b.toNat % 2 ^ q < 2 ^ q := Nat.mod_lt _ (Nat.two_pow_pos q)
  have quiet : b.getLsbD q = false ↔ b.toNat % 2 ^ (q + 1) < 2 ^ q := by
    rw [BitVec.getLsbD, Nat.testBit_eq_decide_div_mod_eq, decide_eq_false_iff_not, Nat.mod_pow_succ]
    rcases Nat.mod_two_eq_zero_or_one (b.toNat / 2 ^ q) with h | h <;> rw [h] <;> omega
  rw [IsSignaling, quiet, ne_eq, BitVec.toNat_eq, BitVec.toNat_eq, BitVec.extractLsb'_toNat, BitVec.extractLsb'_toNat,
    BitVec.toNat_allOnes, Nat.shiftRight_eq_div_pow, Nat.shiftRight_zero, BitVec.toNat_ofNat, Nat.zero_mod]

theorem Canonicalizes.eq_of_getLsbD (h : Canonicalizes e q b b') (hq : b.getLsbD q = true) : b' = b :=
  h.other fun ⟨_, _, clear⟩ => absurd (clear.symm.trans hq) Bool.false_ne_true

/-- A pattern that is no NaN is left alone. -/
theorem Canonicalizes.eq_of_not_nan (h : Canonicalizes e q b b')
    (hb : b.extractLsb' (q + 1) e ≠ BitVec.allOnes e ∨ b.extractLsb' 0 (q + 1) = 0#(q + 1)) : b' = b :=
  h.other fun ⟨exponent, mantissa, _⟩ => hb.elim (absurd exponent) mantissa

/-- No bit but the quiet bit changes. -/
theorem Canonicalizes.getLsbD_of_ne (h : Canonicalizes e q b b') {j : Nat} (hj : j ≠ q) : b'.getLsbD j = b.getLsbD j := by
  by_cases hb : IsSignaling e q b
  · have off : (BitVec.twoPow w q).getLsbD j = false := by simp [BitVec.getLsbD_twoPow, hj.symm]
    rw [h.signaling hb, BitVec.getLsbD_or, off, Bool.or_false]
  · rw [h.other hb]

/-- The result is no signaling NaN: either the pattern was none, or its quiet bit is now set. -/
theorem Canonicalizes.not_isSignaling (h : Canonicalizes e q b b') (hq : q < w) : ¬ IsSignaling e q b' := by
  by_cases hb : IsSignaling e q b
  · have on : b'.getLsbD q = true := by simp [h.signaling hb, hq]
    exact fun ⟨_, _, clear⟩ => absurd (clear.symm.trans on) Bool.false_ne_true
  · rwa [h.other hb]

/-- Canonicalizing again changes nothing. -/
theorem Canonicalizes.idempotent {b'' : BitVec w} (h : Canonicalizes e q b b') (h' : Canonicalizes e q b' b'')
    (hq : q < w) : b'' = b' :=
  h'.other (h.not_isSignaling hq)

/-- Setting a clear bit adds its weight. -/
theorem toNat_or_twoPow (hq : b.getLsbD q = false) (hw : q < w) :
    (b ||| BitVec.twoPow w q).toNat = b.toNat + 2 ^ q := by
  have disjoint : b &&& BitVec.twoPow w q = 0#w := by simp [BitVec.and_twoPow, hq]
  rw [← BitVec.add_eq_or_of_and_eq_zero _ _ disjoint, BitVec.toNat_add_of_and_eq_zero disjoint,
    BitVec.toNat_twoPow_of_lt hw]

theorem Canonicalizes.toNat_eq (h : Canonicalizes e q b b') (hq : q < w) :
    b'.toNat =
      if b.toNat / 2 ^ (q + 1) % 2 ^ e = 2 ^ e - 1 ∧ b.toNat % 2 ^ (q + 1) ≠ 0 ∧ b.toNat % 2 ^ (q + 1) < 2 ^ q
      then b.toNat + 2 ^ q else b.toNat := by
  by_cases hb : IsSignaling e q b
  · have ⟨_, _, clear⟩ := hb
    rw [if_pos ((isSignaling_iff e q b).1 hb), h.signaling hb, toNat_or_twoPow clear hq]
  · rw [if_neg (mt (isSignaling_iff e q b).2 hb), h.other hb]

end laws

/-! ### Binary32 and binary64 -/

theorem isSNaN32_iff (b : BitVec 32) : isSNaN32 b = true ↔ signaling32 b := by
  simp [isSNaN32, signaling32, and_assoc]

theorem isSNaN64_iff (b : BitVec 64) : isSNaN64 b = true ↔ signaling64 b := by
  simp [isSNaN64, signaling64, and_assoc]

theorem canon32_canonicalizes (b : BitVec 32) : Canonicalizes 8 22 b (canon32 b) where
  signaling h := if_pos ((isSNaN32_iff b).2 h)
  other h := if_neg (mt (isSNaN32_iff b).1 h)

theorem canon64_canonicalizes (b : BitVec 64) : Canonicalizes 11 51 b (canon64 b) where
  signaling h := if_pos ((isSNaN64_iff b).2 h)
  other h := if_neg (mt (isSNaN64_iff b).1 h)

theorem canon32_toNat (b : BitVec 32) : (canon32 b).toNat = quieted32 b.toNat :=
  (canon32_canonicalizes b).toNat_eq (by decide)

theorem canon64_toNat (b : BitVec 64) : (canon64 b).toNat = quieted64 b.toNat :=
  (canon64_canonicalizes b).toNat_eq (by decide)

/-- Settles O22: the arithmetic form of the canonicalizer at the two formats. -/
theorem canonicalizerSetsTheQuietBit : Obligations.CanonicalizerSetsTheQuietBit := ⟨canon32_toNat, canon64_toNat⟩

/-- Settles O23: the laws of the canonicalizer at the two formats. -/
theorem canonicalizerLaws : Obligations.CanonicalizerLaws := by
  refine ⟨fun b => ?_, fun b => ?_⟩
  · have h := canon32_canonicalizes b
    have quiet : ¬ signaling32 (canon32 b) := h.not_isSignaling (by decide)
    exact ⟨fun _ hj => h.getLsbD_of_ne hj, h.eq_of_getLsbD, h.eq_of_not_nan,
      h.idempotent (canon32_canonicalizes _) (by decide),
      Bool.eq_false_iff.2 (mt (isSNaN32_iff _).1 quiet), isSNaN32_iff b, quiet⟩
  · have h := canon64_canonicalizes b
    have quiet : ¬ signaling64 (canon64 b) := h.not_isSignaling (by decide)
    exact ⟨fun _ hj => h.getLsbD_of_ne hj, h.eq_of_getLsbD, h.eq_of_not_nan,
      h.idempotent (canon64_canonicalizes _) (by decide),
      Bool.eq_false_iff.2 (mt (isSNaN64_iff _).1 quiet), isSNaN64_iff b, quiet⟩

end Sys2Proof
end

