-- ==== Sys2Proof/Proofs/FloatReads.lean ====
section
/-! PROOFS. The statements of 42_float.md about the floating-point reads (R153, R155, R157) and about what they are in terms
of other commands (R158). The results are first rewritten from bit patterns to numbers. -/

namespace Sys2Proof

open Machine Claims

/-! ### The reads in arithmetic -/

theorem canon32_ofNat {n : Nat} (h : n < 2 ^ 32) :
    (canon32 (BitVec.ofNat 32 n)).setWidth 128 = BitVec.ofNat 128 (quieted32 n) := by
  rw [← BitVec.ofNat_toNat, canon32_toNat, BitVec.toNat_ofNat, Nat.mod_eq_of_lt h]

theorem canon64_ofNat {n : Nat} (h : n < 2 ^ 64) :
    (canon64 (BitVec.ofNat 64 n)).setWidth 128 = BitVec.ofNat 128 (quieted64 n) := by
  rw [← BitVec.ofNat_toNat, canon64_toNat, BitVec.toNat_ofNat, Nat.mod_eq_of_lt h]

/-- NB bytes moved to the top of a binary64 fit it (42_float.md R157). -/
theorem top_bytes_lt {nb n : Nat} (hnb : nb ≤ 8) (hn : n < 2 ^ (8 * nb)) : n * 2 ^ ((8 - nb) * 8) < 2 ^ 64 := by
  have split : (2 : Nat) ^ 64 = 2 ^ (8 * nb) * 2 ^ ((8 - nb) * 8) := by
    rw [← Nat.pow_add]
    congr 1
    omega
  rw [split]
  exact Nat.mul_lt_mul_of_pos_right hn (Nat.two_pow_pos _)

theorem canon64_shiftLeft {nb n : Nat} (hnb : nb ≤ 8) (hn : n < 2 ^ (8 * nb)) :
    (canon64 (BitVec.ofNat 64 n <<< shiftAmount 8 nb)).setWidth 128 =
      BitVec.ofNat 128 (quieted64 (n * 2 ^ ((8 - nb) * 8))) := by
  have shifted : BitVec.ofNat 64 n <<< shiftAmount 8 nb = BitVec.ofNat 64 (n * 2 ^ ((8 - nb) * 8)) := by
    rw [BitVec.toNat_eq, BitVec.toNat_shiftLeft, BitVec.toNat_ofNat, BitVec.toNat_ofNat, Nat.shiftLeft_eq, shiftAmount,
      Nat.mod_mul_mod]
  rw [shifted, canon64_ofNat (top_bytes_lt hnb hn)]

section reads

variable {s : State} {ord : ByteOrder} {w c : Nat} {i : Instr} {cmd : Byte}

theorem readF32_eq : readF32 ord s = commandStep (readAccess 4 ord fun n => BitVec.ofNat 128 (quieted32 n)) s :=
  commandStep_congr (readAccess_congr fun _ hn => canon32_ofNat hn)

theorem readF64_eq : readF64 ord s = commandStep (readAccess 8 ord fun n => BitVec.ofNat 128 (quieted64 n)) s :=
  commandStep_congr (readAccess_congr fun _ hn => canon64_ofNat hn)

/-- Two n-byte reads whose results agree for a legal NB are one. -/
theorem nbyteRead_congr {f g : Nat → Nat → Value}
    (h : ∀ nb n, nb ≤ c → n < 2 ^ (8 * nb) → f nb n = g nb n) : nbyteRead c ord f s = nbyteRead c ord g s := by
  rw [nbyteRead, nbyteRead, nbyteCommand, nbyteCommand]
  refine commandStep_congr ?_
  split
  · next legal => exact readAccess_congr fun n hn => h _ n ((nbytesLegal_iff _ _).1 legal).2 hn
  · rfl

theorem readFloat_eq :
    readFloat ord s = nbyteRead 8 ord (fun nb n => BitVec.ofNat 128 (quieted64 (n * 2 ^ ((8 - nb) * 8)))) s :=
  nbyteRead_congr fun _ _ hnb hn => canon64_shiftLeft hnb hn

/-- A command whose meaning is a read of `w` bytes returns its function of the number they stand for. -/
theorem readsAs_of_readAccess {f : Nat → Value} (hd : decode cmd = .ok i)
    (he : ∀ s, exec i s = commandStep (readAccess w ord f) s) : readsAs i cmd w fun s => f (sliceNumber s ord w) :=
  ⟨hd, fun s hs => ⟨fun hl => by rw [he, commandStep_accepting hs, readAccess_of_le hl],
    fun hl => by rw [he, commandStep_accepting hs, readAccess_of_lt hl]⟩⟩

theorem readsAs_of_readF32 (hd : decode cmd = .ok i) (he : ∀ s, exec i s = readF32 ord s) :
    readsAs i cmd 4 fun s => BitVec.ofNat 128 (quieted32 (sliceNumber s ord 4)) :=
  readsAs_of_readAccess (f := fun n => BitVec.ofNat 128 (quieted32 n)) hd fun s => (he s).trans readF32_eq

theorem readsAs_of_readF64 (hd : decode cmd = .ok i) (he : ∀ s, exec i s = readF64 ord s) :
    readsAs i cmd 8 fun s => BitVec.ofNat 128 (quieted64 (sliceNumber s ord 8)) :=
  readsAs_of_readAccess (f := fun n => BitVec.ofNat 128 (quieted64 n)) hd fun s => (he s).trans readF64_eq

theorem nbyteReadsAs_of_readFloat (hd : decode cmd = .ok i) (he : ∀ s, exec i s = readFloat ord s) :
    nbyteReadsAs i cmd 8 fun s =>
      BitVec.ofNat 128 (quieted64 (sliceNumber s ord s.ports.nb.toNat * 2 ^ ((8 - s.ports.nb.toNat) * 8))) :=
  nbyteReadsAs_of_nbyteRead (result := fun nb n => BitVec.ofNat 128 (quieted64 (n * 2 ^ ((8 - nb) * 8)))) hd
    fun s => (he s).trans readFloat_eq

end reads

/-- Settles O5: each read is the access of its width with the quieted number for its result. -/
theorem floatReadsQuietSignalingNaNs : Obligations.FloatReadsQuietSignalingNaNs :=
  ⟨readsAs_of_readF32 rfl fun _ => rfl, readsAs_of_readF32 rfl fun _ => rfl,
    readsAs_of_readF64 rfl fun _ => rfl, readsAs_of_readF64 rfl fun _ => rfl⟩

/-- Settles O7: RD.FLOAT is the n-byte read whose result is the quieted number of the NB bytes at the top. -/
theorem nbyteFloatReadsFillTheTopBytes : Obligations.NbyteFloatReadsFillTheTopBytes :=
  ⟨nbyteReadsAs_of_readFloat rfl fun _ => rfl, nbyteReadsAs_of_readFloat rfl fun _ => rfl⟩

/-! ### A float read and the unsigned read of its width -/

section sameWidth

variable {s : State} {ord : ByteOrder} {w : Nat} {f g : Nat → Value} {v : Value} {c : Cause}

theorem faulted_inj {c c' : Cause} : faulted s c = faulted s c' ↔ c = c' := by
  refine ⟨fun h => ?_, fun h => h ▸ rfl⟩
  have answers := congrArg State.answers h
  simpa [faulted] using answers

/-- A read that returned a result was accepted and had a long enough slice. -/
theorem readAccess_eq_withResult_iff :
    commandStep (readAccess w ord f) s = .next (withResult s v) ↔
      s.accepting ∧ w ≤ s.ports.len.val ∧ f (sliceNumber s ord w) = v := by
  rw [commandStep_eq_next]
  refine and_congr_right fun _ => ?_
  rcases Nat.lt_or_ge s.ports.len.val w with hl | hl
  · rw [readAccess_of_lt hl]
    simp [faulted, withResult, not_le.2 hl]
  · rw [readAccess_of_le hl]
    simp [withResult, hl]

/-- A read that faulted was accepted and had too short a slice. -/
theorem readAccess_eq_faulted_iff :
    commandStep (readAccess w ord f) s = .next (faulted s c) ↔ s.accepting ∧ s.ports.len.val < w ∧ c = .shortBuf := by
  rw [commandStep_eq_next]
  refine and_congr_right fun _ => ?_
  rcases Nat.lt_or_ge s.ports.len.val w with hl | hl
  · rw [readAccess_of_lt hl, faulted_inj]
    simp [hl, eq_comm]
  · rw [readAccess_of_le hl]
    simp [faulted, withResult, not_lt.2 hl]

theorem sliceNumber_lt (s : State) (ord : ByteOrder) (w : Nat) : sliceNumber s ord w < 2 ^ (8 * w) := by
  have bound := pack_lt ord (s.memRead 0 w)
  rwa [pack_memRead, memRead_length] at bound

/-- The read whose result is `q` of the number is the unsigned read with `q` of its RES (42_float.md R158). -/
theorem readAccess_of_unsigned {q : Nat → Nat} (hw : 8 * w ≤ 128)
    (h : commandStep (readAccess w ord (BitVec.ofNat 128)) s = .next (withResult s v)) :
    commandStep (readAccess w ord fun n => BitVec.ofNat 128 (q n)) s =
      .next (withResult s (BitVec.ofNat 128 (q v.toNat))) := by
  obtain ⟨hs, hl, rfl⟩ := readAccess_eq_withResult_iff.1 h
  have fits : sliceNumber s ord w < 2 ^ 128 :=
    (sliceNumber_lt s ord w).trans_le (Nat.pow_le_pow_right (by decide) hw)
  refine readAccess_eq_withResult_iff.2 ⟨hs, hl, ?_⟩
  rw [BitVec.toNat_ofNat, Nat.mod_eq_of_lt fits]

/-- Reads of one width fault alike. -/
theorem readAccess_faults_alike (h : commandStep (readAccess w ord f) s = .next (faulted s c)) :
    commandStep (readAccess w ord g) s = .next (faulted s c) :=
  readAccess_eq_faulted_iff.2 (readAccess_eq_faulted_iff.1 h)

/-- A read gets from a fixed-width write of the same window the number written (42_float.md R158). -/
theorem readAccess_of_fixedWrite (hs : s.accepting) (hm : s.bufmem.wf = true) (hl : w ≤ s.ports.len.val) :
    ∃ t, fixedWrite (8 * w) ord s = .next t ∧
      commandStep (readAccess w ord f) t = .next (withResult t (f (s.ports.val.toNat % 2 ^ (8 * w)))) := by
  rw [← eight_mul_div w] at hl
  refine ⟨_, fixedWrite_of_le hs hl, ?_⟩
  rw [eight_mul_div] at hl ⊢
  refine readAccess_eq_withResult_iff.2 ⟨memWrite_done_accepting _ _ hs, hl, ?_⟩
  rw [← pack_memRead, memRead_done_memWrite hm (unpack_length ..), pack_unpack, valueOperand_toNat, Nat.mod_mod]

end sameWidth

theorem readF32_of_write {s : State} (ord : ByteOrder) (hs : s.accepting) (hm : s.bufmem.wf = true)
    (hl : 4 ≤ s.ports.len.val) :
    ∃ t, fixedWrite 32 ord s = .next t ∧
      readF32 ord t = .next (withResult t (BitVec.ofNat 128 (quieted32 (s.ports.val.toNat % 2 ^ 32)))) := by
  simp only [readF32_eq]
  exact readAccess_of_fixedWrite (f := fun n => BitVec.ofNat 128 (quieted32 n)) hs hm hl

theorem readF64_of_write {s : State} (ord : ByteOrder) (hs : s.accepting) (hm : s.bufmem.wf = true)
    (hl : 8 ≤ s.ports.len.val) :
    ∃ t, fixedWrite 64 ord s = .next t ∧
      readF64 ord t = .next (withResult t (BitVec.ofNat 128 (quieted64 (s.ports.val.toNat % 2 ^ 64)))) := by
  simp only [readF64_eq]
  exact readAccess_of_fixedWrite (f := fun n => BitVec.ofNat 128 (quieted64 n)) hs hm hl

theorem readF32_of_readU32 {s : State} {ord : ByteOrder} {v : Value}
    (h : fixedRead 32 ord s = .next (withResult s v)) :
    readF32 ord s = .next (withResult s (BitVec.ofNat 128 (quieted32 v.toNat))) :=
  readF32_eq.trans (readAccess_of_unsigned (w := 4) (by decide) h)

theorem readF64_of_readU64 {s : State} {ord : ByteOrder} {v : Value}
    (h : fixedRead 64 ord s = .next (withResult s v)) :
    readF64 ord s = .next (withResult s (BitVec.ofNat 128 (quieted64 v.toNat))) :=
  readF64_eq.trans (readAccess_of_unsigned (w := 8) (by decide) h)

/-! ### RD.FLOAT and RD.F64 -/

section zeroFilled

variable {s s' : State} {nb : Nat}

/-- Zero bytes after a big-endian number move it to the top. -/
theorem sliceNumber_be_of_zeros_after (hnb : nb ≤ 8)
    (h : ∀ k, k < 8 → s'.slice k = if k < nb then s.slice k else 0#8) :
    sliceNumber s' .be 8 = sliceNumber s .be nb * 2 ^ ((8 - nb) * 8) := by
  have split : 8 = nb + (8 - nb) := by omega
  have high : ∀ k ∈ Finset.range nb, (s'.slice k).toNat * 2 ^ (8 * (8 - 1 - k)) =
      (s.slice k).toNat * 2 ^ (8 * (nb - 1 - k)) * 2 ^ ((8 - nb) * 8) := fun k hk => by
    have hk := Finset.mem_range.1 hk
    rw [h k (by omega), if_pos hk, mul_assoc, ← pow_add]
    congr 2
    omega
  have low : ∀ k ∈ Finset.range (8 - nb), (s'.slice (nb + k)).toNat * 2 ^ (8 * (8 - 1 - (nb + k))) = 0 := fun k hk => by
    have hk := Finset.mem_range.1 hk
    rw [h _ (by omega), if_neg (by omega)]
    simp
  calc sliceNumber s' .be 8
      = ∑ k ∈ Finset.range (nb + (8 - nb)), (s'.slice k).toNat * 2 ^ (8 * (8 - 1 - k)) := by rw [← split]; rfl
    _ = ∑ k ∈ Finset.range nb, (s.slice k).toNat * 2 ^ (8 * (nb - 1 - k)) * 2 ^ ((8 - nb) * 8) := by
      rw [Finset.sum_range_add, Finset.sum_congr rfl high, Finset.sum_eq_zero low, Nat.add_zero]
    _ = sliceNumber s .be nb * 2 ^ ((8 - nb) * 8) := (Finset.sum_mul ..).symm

/-- Zero bytes before a little-endian number move it to the top. -/
theorem sliceNumber_le_of_zeros_before (hnb : nb ≤ 8)
    (h : ∀ k, k < 8 → s'.slice k = if k < 8 - nb then 0#8 else s.slice (k - (8 - nb))) :
    sliceNumber s' .le 8 = sliceNumber s .le nb * 2 ^ ((8 - nb) * 8) := by
  have split : 8 = 8 - nb + nb := by omega
  have low : ∀ k ∈ Finset.range (8 - nb), (s'.slice k).toNat * 2 ^ (8 * k) = 0 := fun k hk => by
    have hk := Finset.mem_range.1 hk
    rw [h k (by omega), if_pos hk]
    simp
  have high : ∀ k ∈ Finset.range nb, (s'.slice (8 - nb + k)).toNat * 2 ^ (8 * (8 - nb + k)) =
      (s.slice k).toNat * 2 ^ (8 * k) * 2 ^ ((8 - nb) * 8) := fun k hk => by
    have hk := Finset.mem_range.1 hk
    rw [h _ (by omega), if_neg (by omega), Nat.add_sub_cancel_left, mul_assoc, ← pow_add]
    congr 2
    omega
  calc sliceNumber s' .le 8
      = ∑ k ∈ Finset.range (8 - nb + nb), (s'.slice k).toNat * 2 ^ (8 * k) := by rw [← split]; rfl
    _ = ∑ k ∈ Finset.range nb, (s.slice k).toNat * 2 ^ (8 * k) * 2 ^ ((8 - nb) * 8) := by
      rw [Finset.sum_range_add, Finset.sum_congr rfl high, Finset.sum_eq_zero low, Nat.zero_add]
    _ = sliceNumber s .le nb * 2 ^ ((8 - nb) * 8) := (Finset.sum_mul ..).symm

/-- RD.FLOAT returns what RD.F64 returns of a slice whose number is that of the NB bytes at the top. -/
theorem readFloat_readF64 {ord : ByteOrder} (hs : s.accepting) (hs' : s'.accepting) (h1 : 1 ≤ s.ports.nb.toNat)
    (h8 : s.ports.nb.toNat ≤ 8) (hl : s.ports.nb.toNat ≤ s.ports.len.val) (hl' : 8 ≤ s'.ports.len.val)
    (h : sliceNumber s' ord 8 = sliceNumber s ord s.ports.nb.toNat * 2 ^ ((8 - s.ports.nb.toNat) * 8)) :
    ∃ v, readFloat ord s = .next (withResult s v) ∧ readF64 ord s' = .next (withResult s' v) := by
  refine ⟨_, readFloat_eq.trans (nbyteRead_of_legal hs h1 h8 hl), ?_⟩
  rw [readF64_eq, commandStep_accepting hs', readAccess_of_le hl', h]

end zeroFilled

/-- Settles O28: the float writes are the unsigned ones by definition; the float reads are accesses of the same width with
the quieted number for their result; and zero bytes below a number are a power of two above it. -/
theorem floatCommandsByOtherCommands : Obligations.FloatCommandsByOtherCommands := by
  refine ⟨fun s => ⟨rfl, rfl, rfl, rfl⟩, fun s hs hm hl => ?_, fun s hs hm hl => ?_, fun s v => ?_, fun s c => ?_,
    fun s s' hs hs' h1 h8 hl hl' => ?_⟩
  · exact ⟨readF32_of_write .be hs hm hl, readF32_of_write .le hs hm hl⟩
  · exact ⟨readF64_of_write .be hs hm hl, readF64_of_write .le hs hm hl⟩
  · exact ⟨readF32_of_readU32, readF32_of_readU32, readF64_of_readU64, readF64_of_readU64⟩
  · exact ⟨readAccess_faults_alike, readAccess_faults_alike, readAccess_faults_alike, readAccess_faults_alike⟩
  · exact ⟨fun h => readFloat_readF64 hs hs' h1 h8 hl hl' (sliceNumber_be_of_zeros_after h8 h),
      fun h => readFloat_readF64 hs hs' h1 h8 hl hl' (sliceNumber_le_of_zeros_before h8 h)⟩

end Sys2Proof
end

