-- ==== Sys2Proof/Proofs/Ports.lean ====
section
/-! PROOFS. The statement of 10_state.md section 2 about the ports a command does not use: NB, and the bits of VAL above the
type (R21). -/

namespace Sys2Proof

open Machine Claims

/-- The state with other contents of the ports NB and VAL. -/
def withOperands (s : State) (nb : BitVec 8) (val : Value) : State :=
  { s with ports := { s.ports with nb := nb, val := val } }

section operands

variable {s : State} {nb : BitVec 8} {val : Value} {w n c : Nat} {ord : ByteOrder}

@[simp] theorem withOperands_nbytes : (withOperands s nb val).nbytes = nb.toNat := rfl

/-- VAL[N-1:0] is the same when the low N bits of VAL are. -/
theorem valueOperand_withOperands (h : val.toNat % 2 ^ n = s.ports.val.toNat % 2 ^ n) :
    (withOperands s nb val).valueOperand n = s.valueOperand n := by
  rw [BitVec.toNat_eq, valueOperand_toNat, valueOperand_toNat]
  exact h

/-- The gate does not look at NB and VAL. -/
theorem effect_commandStep {f g : State → State}
    (h : effect (.next (f (withOperands s nb val))) = effect (.next (g s))) :
    effect (commandStep f (withOperands s nb val)) = effect (commandStep g s) := by
  cases hh : s.halted with
  | true => rw [commandStep_halted hh, commandStep_halted (s := withOperands s nb val) hh]
  | false =>
    rcases Nat.lt_or_ge s.bufsz (s.ports.base.val + s.ports.len.val) with hw | hw
    · rw [commandStep_badWindow hh hw, commandStep_badWindow (s := withOperands s nb val) hh hw]
    · rw [commandStep_accepting ⟨hh, hw⟩, commandStep_accepting (s := withOperands s nb val) ⟨hh, hw⟩, h]

theorem effect_readAccess (f : Nat → Value) :
    effect (.next (readAccess w ord f (withOperands s nb val))) = effect (.next (readAccess w ord f s)) := by
  rcases Nat.lt_or_ge s.ports.len.val w with hl | hl
  · rw [readAccess_of_lt hl, readAccess_of_lt (s := withOperands s nb val) hl]
    rfl
  · rw [readAccess_of_le hl, readAccess_of_le (s := withOperands s nb val) hl]
    rfl

theorem effect_writeAccess (v : Nat) :
    effect (.next (writeAccess w ord v (withOperands s nb val))) = effect (.next (writeAccess w ord v s)) := by
  rcases Nat.lt_or_ge s.ports.len.val w with hl | hl
  · rw [writeAccess_of_lt hl, writeAccess_of_lt (s := withOperands s nb val) hl]
    rfl
  · rw [writeAccess_of_le hl, writeAccess_of_le (s := withOperands s nb val) hl]
    rfl

/-- A read of a fixed width uses neither port. -/
theorem effect_read (f : Nat → Value) :
    effect (commandStep (readAccess w ord f) (withOperands s nb val)) = effect (commandStep (readAccess w ord f) s) :=
  effect_commandStep (effect_readAccess f)

/-- A write of a fixed width uses the low N bits of VAL. -/
theorem effect_fixedWrite (h : val.toNat % 2 ^ n = s.ports.val.toNat % 2 ^ n) :
    effect (fixedWrite n ord (withOperands s nb val)) = effect (fixedWrite n ord s) := by
  refine effect_commandStep ?_
  rw [valueOperand_withOperands h, effect_writeAccess]

/-- An n-byte command whose body does not look at VAL does not either. -/
theorem effect_nbyteCommand {body : Nat → State → State} (hnb : nb = s.ports.nb)
    (h : effect (.next (body nb.toNat (withOperands s nb val))) = effect (.next (body nb.toNat s))) :
    effect (nbyteCommand c body (withOperands s nb val)) = effect (nbyteCommand c body s) := by
  refine effect_commandStep ?_
  have same : s.nbytes = nb.toNat := congrArg BitVec.toNat hnb.symm
  by_cases legal : nbytesLegal c nb.toNat = true
  · simpa only [withOperands_nbytes, same, legal, if_true] using h
  · simp only [withOperands_nbytes, same, legal]
    rfl

theorem effect_nbyteRead {result : Nat → Nat → Value} (hnb : nb = s.ports.nb) :
    effect (nbyteRead c ord result (withOperands s nb val)) = effect (nbyteRead c ord result s) :=
  effect_nbyteCommand hnb (effect_readAccess _)

theorem effect_readUint (hnb : nb = s.ports.nb) :
    effect (readUint c ord (withOperands s nb val)) = effect (readUint c ord s) := effect_nbyteRead hnb

theorem effect_readInt (hnb : nb = s.ports.nb) :
    effect (readInt c ord (withOperands s nb val)) = effect (readInt c ord s) := effect_nbyteRead hnb

theorem effect_readFloat (hnb : nb = s.ports.nb) :
    effect (readFloat ord (withOperands s nb val)) = effect (readFloat ord s) := effect_nbyteRead hnb

/-- An n-byte write uses VAL through its value check and the number it writes. -/
theorem effect_nbyteWrite {fits : Nat → State → Bool} {v : Nat → State → Nat} (hnb : nb = s.ports.nb)
    (hfits : fits nb.toNat (withOperands s nb val) = fits nb.toNat s)
    (hv : v nb.toNat (withOperands s nb val) = v nb.toNat s) :
    effect (nbyteWrite c ord fits v (withOperands s nb val)) = effect (nbyteWrite c ord fits v s) := by
  refine effect_nbyteCommand hnb ?_
  simp only [hfits, hv, checkedWrite]
  split
  · exact effect_writeAccess _
  · rfl

theorem effect_writeUint {size : Nat → Nat} (hnb : nb = s.ports.nb)
    (h : val.toNat % 2 ^ (8 * c) = s.ports.val.toNat % 2 ^ (8 * c)) :
    effect (writeUint c size ord (withOperands s nb val)) = effect (writeUint c size ord s) :=
  effect_nbyteWrite hnb (by rw [valueOperand_withOperands h]) (by rw [valueOperand_withOperands h])

theorem effect_writeInt (hnb : nb = s.ports.nb) (h : val.toNat % 2 ^ (8 * c) = s.ports.val.toNat % 2 ^ (8 * c)) :
    effect (writeInt c ord (withOperands s nb val)) = effect (writeInt c ord s) :=
  effect_nbyteWrite hnb (by rw [valueOperand_withOperands h]) (by rw [valueOperand_withOperands h])

end operands

/-- Settles O31, family by family: a fixed-width command never looks at NB, a read never at VAL, and a write at VAL[N-1:0]
only. -/
theorem unusedPortBitsAreIgnored : Obligations.UnusedPortBitsAreIgnored := by
  intro i s nb val hnb hval
  change effect (exec i (withOperands s nb val)) = effect (exec i s)
  cases i
  case rdU16Be | rdU16Le | rdU32Be | rdU32Le | rdU64Be | rdU64Le | rdU128Be | rdU128Le | rdI16Be | rdI16Le | rdI32Be
      | rdI32Le | rdI64Be | rdI64Le | rdI128Be | rdI128Le | rdF32Be | rdF32Le | rdF64Be | rdF64Le =>
    exact effect_read _
  case wrU16Be | wrU16Le | wrU32Be | wrU32Le | wrU64Be | wrU64Le | wrU128Be | wrU128Le | wrI16Be | wrI16Le | wrI32Be
      | wrI32Le | wrI64Be | wrI64Le | wrI128Be | wrI128Le | wrF32Be | wrF32Le | wrF64Be | wrF64Le =>
    exact effect_fixedWrite (hval rfl)
  case rdUintBe | rdUintLe | rdUint128Be | rdUint128Le => exact effect_readUint (hnb rfl)
  case rdIntBe | rdIntLe | rdInt128Be | rdInt128Le => exact effect_readInt (hnb rfl)
  case rdFloatBe | rdFloatLe => exact effect_readFloat (hnb rfl)
  case wrUintBe | wrUintLe | wrUint128Be | wrUint128Le => exact effect_writeUint (hnb rfl) (hval rfl)
  case wrIntBe | wrIntLe | wrInt128Be | wrInt128Le => exact effect_writeInt (hnb rfl) (hval rfl)

end Sys2Proof
end

