-- ==== Sys2Proof/Proofs/SharedBufmem.lean ====
section
/-! PROOFS. The statement of 60_exceptions.md section 5 about two blocks on one BUFMEM (R196). Which bytes of BUFMEM a
presented command sees and which it writes is its shape, and that does not depend on what BUFMEM holds; two shapes whose
bytes are apart commute. -/

namespace Sys2Proof

open Machine

/-! ### Accesses that do not meet -/

/-- The `n` bytes from `a` on and the `m` bytes from `b` on have none in common. -/
def Apart (a n b m : Nat) : Prop := n = 0 ∨ m = 0 ∨ a + n ≤ b ∨ b + m ≤ a

theorem Apart.symm {a n b m : Nat} (h : Apart a n b m) : Apart b m a n := by
  rw [Apart] at h ⊢
  omega

section apart

variable {m : Memory} {a b n : Nat} {bl bl' : List Byte}

/-- A read does not see bytes written apart from it. -/
theorem readBytes_writeBytes_apart (hm : m.wf = true) (h : Apart a bl.length b n) :
    (m.writeBytes a bl).readBytes b n = m.readBytes b n :=
  readBytes_congr n fun k hk => by
    rw [Apart] at h
    rw [read_writeBytes bl a _ hm, if_neg (by omega)]

/-- Two writes of bytes apart from each other may change places. -/
theorem writeBytes_comm (hm : m.wf = true) (h : Apart a bl.length b bl'.length) :
    (m.writeBytes a bl).writeBytes b bl' = (m.writeBytes b bl').writeBytes a bl := by
  have hma := writeBytes_wf bl a hm
  have hmb := writeBytes_wf bl' b hm
  refine memory_ext (writeBytes_wf bl' b hma) (writeBytes_wf bl a hmb) fun x => ?_
  rw [read_writeBytes bl' b x hma, read_writeBytes bl a x hm, read_writeBytes bl a x hmb, read_writeBytes bl' b x hm]
  rw [Apart] at h
  by_cases hb : b ≤ x ∧ x < b + bl'.length
  · rw [if_pos hb, if_pos hb, if_neg (by omega)]
  · rw [if_neg hb, if_neg hb]

end apart

/-- The bytes an access range covers, if there are any (20_memory.md R46). -/
def Covers (range : Option (Nat × Nat × Bool)) (a n : Nat) (writes : Bool) : Prop :=
  n = 0 ∨ range = some (a, n, writes)

/-- Accesses that do not conflict are apart where one of them writes (60_exceptions.md R196). -/
theorem apart_of_not_conflicting {ra rb : Option (Nat × Nat × Bool)} {a n b m : Nat} {wa wb : Bool}
    (h : conflicting ra rb = false) (ha : Covers ra a n wa) (hb : Covers rb b m wb) (hw : wa = true ∨ wb = true) :
    Apart a n b m := by
  rcases ha with rfl | rfl
  · exact .inl rfl
  rcases hb with rfl | rfl
  · exact .inr (.inl rfl)
  have some_writes : (wa || wb) = true := Bool.or_eq_true_iff.2 hw
  simp only [conflicting, some_writes, Bool.true_and, Bool.and_eq_false_iff, decide_eq_false_iff_not] at h
  rw [Apart]
  omega

/-! ### The shape of a presented command -/

/-- What a presented command does, whatever the BUFMEM `m` it finds: it stops, or it sees `n` bytes of `m` and writes `bl`,
both within its access range. -/
inductive PresentShape (r : Request) (s : State) : Prop where
  | stops (h : ∀ m t, present r { s with bufmem := m } ≠ .next t)
  | runs (n : Nat) (bl : List Byte) (u : List Byte → State) (hr : Covers (accessRange r s) r.base.val n false)
      (hw : Covers (accessRange r s) r.base.val bl.length true)
      (h : ∀ m, present r { s with bufmem := m } =
        .next { u (m.readBytes r.base.val n) with bufmem := m.writeBytes r.base.val bl })

/-- A command that completes accesses its whole width. -/
theorem accessRange_of_completed {r : Request} {s t : State} {i : Instr} (hd : decode r.cmd = .ok i)
    (hh : s.halted = false) (h : present r s = .next t) (ht : t.halted = false) :
    accessRange r s = some (r.base.val, i.accessWidth r.nb, i.isWrite) := by
  simp [accessRange, hd, completes, h, hh, ht]

/-- A legal command in a running block has a shape: its request settles what it does. -/
theorem present_shape_of_legal {r : Request} {s : State} {i : Instr} (hd : decode r.cmd = .ok i)
    (hh : s.halted = false) : PresentShape r s := by
  have legal (m : Memory) : present r { s with bufmem := m } = exec i { s with bufmem := m, ports := r } :=
    present_legal (s := { s with bufmem := m }) hh hd
  by_cases window : r.base.val + r.len.val ≤ s.bufsz
  case neg =>
    refine .stops fun m t h => ?_
    rw [legal, windowOutsideBufmemIsRefused i { s with bufmem := m, ports := r } hh (not_le.1 window)] at h
    cases h
  have accepted (m : Memory) : ({ s with bufmem := m, ports := r } : State).accepting := ⟨hh, window⟩
  obtain ⟨be, le, hb, hl, hi, hw, hwr⟩ := instr_ordered i
  have shape := exec_shape hb hl r
  rw [hw, hwr] at shape
  have he (x : State) : exec i x = exec (ordered be le i.fields.2.2.2) x := congrArg (exec · x) hi
  have runs {t : Memory → State}
      (h : ∀ m, exec (ordered be le i.fields.2.2.2) { s with bufmem := m, ports := r } = .next (t m)) (m : Memory) :
      present r { s with bufmem := m } = .next (t m) := (legal m).trans ((he _).trans (h m))
  cases shape with
  | fault c h =>
    exact .runs 0 [] (fun _ => State.raise { s with ports := r } c) (.inl rfl) (.inl rfl)
      (runs fun m => h _ _ (accepted m) rfl)
  | read hr _ f h =>
    have hp := runs fun m => h _ _ (accepted m) rfl
    have range := accessRange_of_completed hd hh (hp s.bufmem) hh
    rw [hr] at range
    exact .runs _ [] (fun bl => State.doneRes { s with ports := r } (f (pack i.fields.2.2.2 bl))) (.inr range)
      (.inl rfl) hp
  | write hwrite _ v h =>
    have hp := runs fun m => h _ _ (accepted m) rfl
    have range := accessRange_of_completed hd hh (hp s.bufmem) hh
    rw [hwrite] at range
    exact .runs 0 (unpack i.fields.2.2.2 (i.accessWidth r.nb) v) (fun _ => State.done { s with ports := r }) (.inl rfl)
      (.inr (by rw [range, unpack_length])) hp

/-- Every presented command has a shape; one that is ignored or illegal touches no byte. -/
theorem present_shape (r : Request) (s : State) : PresentShape r s := by
  cases hh : s.halted with
  | true =>
    exact .runs 0 [] (fun _ => s) (.inl rfl) (.inl rfl) fun m => present_halted (s := { s with bufmem := m }) hh
  | false =>
    cases hd : decode r.cmd with
    | ok i => exact present_shape_of_legal hd hh
    | error e =>
      exact .runs 0 [] (fun _ => State.raise { s with ports := r } .illegalCmd) (.inl rfl) (.inl rfl) fun m =>
        present_illegal (s := { s with bufmem := m }) hh hd

/-! ### One after the other -/

section inTurn

variable {ra rb : Request} {a b a' b' : State}

/-- Two commands in turn: the second meets the BUFMEM that the first one left, and both blocks hold what the second one
leaves. -/
theorem presentInTurn_eq_next_iff :
    presentInTurn ra rb a b = .next (a', b') ↔
      ∃ t, present ra a = .next t ∧ present rb { b with bufmem := t.bufmem } = .next b' ∧
        { t with bufmem := b'.bufmem } = a' := by
  unfold presentInTurn
  cases present ra a with
  | fault _ | refused _ => exact ⟨nofun, nofun⟩
  | next t =>
    dsimp only
    constructor
    · intro h
      split at h <;> cases h
      next hb => exact ⟨t, rfl, hb, rfl⟩
    · rintro ⟨_, ⟨⟩, hb, rfl⟩
      rw [hb]

/-- The outcome of two commands that run: the second one sees what the first one wrote. -/
theorem presentInTurn_of_runs {na nb : Nat} {bla blb : List Byte} {ua ub : List Byte → State}
    (ha : ∀ m, present ra { a with bufmem := m } =
      .next { ua (m.readBytes ra.base.val na) with bufmem := m.writeBytes ra.base.val bla })
    (hb : ∀ m, present rb { b with bufmem := m } =
      .next { ub (m.readBytes rb.base.val nb) with bufmem := m.writeBytes rb.base.val blb })
    (hwf : a.bufmem.wf = true) (hwr : Apart ra.base.val bla.length rb.base.val nb) :
    presentInTurn ra rb a b = .next
      ({ ua (a.bufmem.readBytes ra.base.val na) with
          bufmem := (a.bufmem.writeBytes ra.base.val bla).writeBytes rb.base.val blb },
        { ub (a.bufmem.readBytes rb.base.val nb) with
          bufmem := (a.bufmem.writeBytes ra.base.val bla).writeBytes rb.base.val blb }) := by
  have second := hb (a.bufmem.writeBytes ra.base.val bla)
  rw [readBytes_writeBytes_apart hwf hwr] at second
  exact presentInTurn_eq_next_iff.2 ⟨_, ha a.bufmem, second, rfl⟩

/-- A command that stops lets neither order give a next pair of states. -/
theorem presentInTurn_of_stops (ha : ∀ m t, present ra { a with bufmem := m } ≠ .next t) :
    presentInTurn ra rb a b ≠ .next (a', b') ∧ presentInTurn rb ra b a ≠ .next (b', a') := by
  refine ⟨fun h => ?_, fun h => ?_⟩
  · obtain ⟨t, first, -, -⟩ := presentInTurn_eq_next_iff.1 h
    exact ha _ _ first
  · obtain ⟨t, -, second, -⟩ := presentInTurn_eq_next_iff.1 h
    exact ha _ _ second

/-- Without a conflict the two orders give the same pair of states (60_exceptions.md R196). -/
theorem presentInTurn_comm (hm : a.bufmem = b.bufmem) (hwf : a.bufmem.wf = true)
    (hc : conflicting (accessRange ra a) (accessRange rb b) = false) :
    presentInTurn ra rb a b = .next (a', b') ↔ presentInTurn rb ra b a = .next (b', a') := by
  cases present_shape ra a with
  | stops ha =>
    obtain ⟨h1, h2⟩ := presentInTurn_of_stops ha
    exact iff_of_false h1 h2
  | runs na bla ua har haw ha =>
    cases present_shape rb b with
    | stops hb =>
      obtain ⟨h1, h2⟩ := presentInTurn_of_stops hb
      exact iff_of_false h2 h1
    | runs nb blb ub hbr hbw hb =>
      have write_read := apart_of_not_conflicting hc haw hbr (.inl rfl)
      have read_write := (apart_of_not_conflicting hc har hbw (.inr rfl)).symm
      have write_write := apart_of_not_conflicting hc haw hbw (.inl rfl)
      rw [presentInTurn_of_runs ha hb hwf write_read, presentInTurn_of_runs hb ha (hm ▸ hwf) read_write, ← hm,
        writeBytes_comm hwf write_write]
      simp only [Host.Outcome.next.injEq, Prod.mk.injEq, and_comm]

end inTurn

/-- Settles O53: a conflict is refused before anything runs, and without one the two orders give the same two states. -/
theorem independentInstancesCommute : Obligations.IndependentInstancesCommute := by
  intro ra rb a b hm _ hwf
  refine ⟨fun hc => if_pos hc, fun hc => ⟨?_, fun _ _ => presentInTurn_comm hm hwf hc⟩⟩
  rw [presentTogether, hc]
  rfl

end Sys2Proof
end
